-- ==== Sys2Proof/Word.lean ====
section
/-! DEFINITION. The word types: an 8-bit byte (R24), a 16-bit program address (R20), and the six
interrupt levels (R200). -/

namespace Sys2Proof

/-- An 8-bit register, memory cell or operand (R24, R67). -/
abbrev Byte := BitVec 8

/-- A 16-bit program-memory or external-data-memory address (R20, R60). -/
abbrev Addr := BitVec 16

/-- An interrupt level IRQ0 to IRQ5 (R200): the number n of IRQn, of `IRQ[n]` and of `REQ[n]`. -/
abbrev Level := Fin 6

end Sys2Proof
end

