-- ==== Sys2Proof/Syntax.lean ====
section
/-! DEFINITION. The instructions of the subset (R83), one constructor per row of
spec/opcode_table.json, and the condition codes of JR (R82). -/

namespace Sys2Proof

/-- The sixteen condition codes of JR (R82), in the order of their four-bit codes. -/
inductive Cond where
  | f | lt | le | ule | ov | mi | z | c
  | always | ge | gt | ugt | nov | pl | nz | nc
deriving DecidableEq, Repr

/-- An instruction with its decoded operands (R80, R81): `dst` and `src` are 8-bit register
addresses, `im` an 8-bit immediate, `ra` a signed displacement, `da` a program-memory address. -/
inductive Instr where
  | di
  | ei
  | iret
  | clr (dst : Byte)
  | or (dst im : Byte)
  | and (dst im : Byte)
  | tm (dst im : Byte)
  | ld (dst im : Byte)
  | push (src : Byte)
  | pop (dst : Byte)
  | jr (cc : Cond) (ra : Byte)
  | call (da : Addr)
  | ret
deriving DecidableEq, Repr

/-- The register-address operand of an instruction, if it has one (R81). -/
def Instr.regOperand : Instr → Option Byte
  | .di => none
  | .ei => none
  | .iret => none
  | .clr dst => some dst
  | .or dst _ => some dst
  | .and dst _ => some dst
  | .tm dst _ => some dst
  | .ld dst _ => some dst
  | .push src => some src
  | .pop dst => some dst
  | .jr _ _ => none
  | .call _ => none
  | .ret => none

/-- The register an instruction writes as its operand, if it has one (R120 to R126): the destination of
CLR, OR, AND, LD and POP; TM and PUSH only read their operand. -/
def Instr.writtenOperand : Instr → Option Byte
  | .di => none
  | .ei => none
  | .iret => none
  | .clr dst => some dst
  | .or dst _ => some dst
  | .and dst _ => some dst
  | .tm _ _ => none
  | .ld dst _ => some dst
  | .push _ => none
  | .pop dst => some dst
  | .jr _ _ => none
  | .call _ => none
  | .ret => none

/-- The length in bytes (R80, R83). -/
def Instr.length : Instr → Nat
  | .di => 1
  | .ei => 1
  | .iret => 1
  | .clr _ => 2
  | .or _ _ => 3
  | .and _ _ => 3
  | .tm _ _ => 3
  | .ld _ _ => 3
  | .push _ => 2
  | .pop _ => 2
  | .jr _ _ => 2
  | .call _ => 3
  | .ret => 1

end Sys2Proof
end

