-- ==== Sys2Proof/Machine/Flags.lean ====
section
/-! DEFINITION. The flag bits (R22), the flag result of a logical operation (R127) and the
conditions of JR (R82). -/

namespace Sys2Proof.Machine

/-- `FLAGS[7]`, carry (R22). -/
def flagC (f : Byte) : Bool := f.getLsbD 7

/-- `FLAGS[6]`, zero (R22). -/
def flagZ (f : Byte) : Bool := f.getLsbD 6

/-- `FLAGS[5]`, sign (R22). -/
def flagS (f : Byte) : Bool := f.getLsbD 5

/-- `FLAGS[4]`, overflow (R22). -/
def flagV (f : Byte) : Bool := f.getLsbD 4

/-- `LogicFlags(r)` on the flag byte `f`: Z and S from r, V = 0, the other five bits kept (R127). -/
def logicFlags (r f : Byte) : Byte :=
  (f &&& 0x8F#8) ||| (if r = 0x00#8 then 0x40#8 else 0x00#8) |||
    (if r.getLsbD 7 then 0x20#8 else 0x00#8)

/-- The condition holds of the flag byte (R82). -/
def condHolds (cc : Cond) (f : Byte) : Bool :=
  match cc with
  | .f => false
  | .lt => flagS f ^^ flagV f
  | .le => flagZ f || (flagS f ^^ flagV f)
  | .ule => flagC f || flagZ f
  | .ov => flagV f
  | .mi => flagS f
  | .z => flagZ f
  | .c => flagC f
  | .always => true
  | .ge => !(flagS f ^^ flagV f)
  | .gt => !(flagZ f || (flagS f ^^ flagV f))
  | .ugt => !flagC f && !flagZ f
  | .nov => !flagV f
  | .pl => !flagS f
  | .nz => !flagZ f
  | .nc => !flagC f

end Sys2Proof.Machine
end

