-- ==== Sys2Proof/Machine/Bits.lean ====
section
/-! DEFINITION. Bit-field, byte-order and sign-extension helpers (R8). -/

namespace Sys2Proof.Machine

/-- `lo8(w) = w[7:0]` (R8). -/
def lo8 (w : Addr) : Byte := w.extractLsb' 0 8

/-- `hi8(w) = w[15:8]` (R8). -/
def hi8 (w : Addr) : Byte := w.extractLsb' 8 8

/-- `{h, l}`: two bytes as one 16-bit value, the first the more significant (R8). -/
def join16 (h l : Byte) : Addr := h ++ l

/-- `sext_16` of a byte (R8). -/
def sext16 (v : Byte) : Addr := v.signExtend 16

/-- `zext_16` of a byte (R8). -/
def zext16 (v : Byte) : Addr := v.setWidth 16

/-- The byte with only bit n set: the place of level n in IRQ and IMR (R30, R34). -/
def levelBit (n : Level) : Byte := 1#8 <<< n.val

/-- The six-bit value with only bit n set: the place of level n in REQ (R44). -/
def reqBit (n : Level) : BitVec 6 := 1#6 <<< n.val

/-- `v[7] <- 1` (R35). -/
def setBit7 (v : Byte) : Byte := v ||| 0x80#8

/-- `v[7] <- 0` (R35). -/
def clearBit7 (v : Byte) : Byte := v &&& 0x7F#8

/-- The first byte of `hi` (bits 7:6) with the last six bits of `lo` (bits 5:0). -/
def withLow6 (hi lo : Byte) : Byte := (hi &&& 0xC0#8) ||| (lo &&& 0x3F#8)

end Sys2Proof.Machine
end

