-- ==== Sys2Proof/Config.lean ====
section
/-! DEFINITION. What a device fixes (the parameters of R5) and the free values.

`Params` is a record of plain data that `State` carries and no step writes (log 1); the default
values stand in Machine/Parameters.lean. The free values are constants without a body: one for each
`draw_N()` of the spec (93_implementation_defined.md U1, U2, U10, U13, U14), applied to the counter
`State.draws`, so that a statement about one holds whatever it is. -/

namespace Sys2Proof

/-- The pins of Port 3 that can carry an external interrupt request (R47). -/
inductive Pin where
  | p30 | p31 | p32 | p33
deriving DecidableEq, Repr

/-- One transition of a pin (R211). -/
inductive Edge where
  | falling | rising
deriving DecidableEq, Repr

/-- Which transitions of a pin count as a request: F, R or R/F of Table 7-4 (R32). -/
inductive EdgeKind where
  | falling | rising | both
deriving DecidableEq, Repr

/-- The sources of Table 7-1 (R201). `ext n` are the pin requests the table calls IRQ0 to IRQ3;
the comparator is listed for two levels. -/
inductive Source where
  | ext0 | ext1 | ext2 | ext3
  | dav0 | dav1 | dav2
  | comparator0 | comparator2
  | tin | serialIn | timer0 | serialOut | timer1
deriving DecidableEq, Repr

/-- The parameters of R5, and the active edges R211 leaves to the product specification. -/
structure Params where
  /-- `IPR_ADDR`, `IRQ_ADDR`, `IMR_ADDR`, `FLAGS_ADDR`, `SPH_ADDR`, `SPL_ADDR`. -/
  iprAddr : Byte
  irqAddr : Byte
  imrAddr : Byte
  flagsAddr : Byte
  sphAddr : Byte
  splAddr : Byte
  /-- `EDGE_SELECT`: `IRQ[7:6]` select edges (true) or are reserved (false). -/
  edgeSelect : Bool
  /-- `RAM_PROTECT`: the RAM Protect option is selected, so `IMR[6]` belongs to it. -/
  ramProtect : Bool
  /-- `IRQ3_EXT_PIN`: true is P32, false is P30. -/
  irq3OnP32 : Bool
  /-- `SERIAL_IN_ENABLED`. -/
  serialInEnabled : Bool
  /-- `STACK_INTERNAL`: the stack is in the register file (true) or in external memory (false). -/
  stackInternal : Bool
  /-- `RESET_PC`. -/
  resetPc : Addr
  /-- `RF_IMPL`, as the ranges of register addresses (both ends included) that are plain storage. -/
  rfRanges : List (Byte × Byte)
  /-- `SOURCES`: the sources this device has; `SOURCES(n)` are those of level n. -/
  sources : List Source
  /-- The active edges of P31, P32 and P33 where `IRQ[7:6]` does not choose them. -/
  edgeP31 : EdgeKind
  edgeP32 : EdgeKind
  edgeP33 : EdgeKind
deriving DecidableEq, Repr

/-- The byte a read of the write-only IPR gives (R42, U10): a free value, not the stored byte. -/
opaque Config.iprRead : Nat → Byte

/-- Which waiting requests survive a sample point while `IRQEN` = 0 (R220, U13): bit n is the
`draw_1()` of level n. -/
opaque Config.reqSurvives : Nat → BitVec 6

/-- `IMR[6:0]` after the reset event (R38, U2). -/
opaque Config.resetImr : Nat → BitVec 7

/-- `IPR` after the reset event (R43, U1). -/
opaque Config.resetIpr : Nat → Byte

/-- `REQ` after the reset event (R44, U13). -/
opaque Config.resetReq : Nat → BitVec 6

/-- The register-file byte at an address after the reset event, FLAGS and SP among them
(R21, R23, R25, U14). -/
opaque Config.resetRf : Nat → Byte → Byte

end Sys2Proof
end

