-- ==== Sys2Proof/Decode.lean ====
section
/-! DEFINITION. The decoder (R80 to R84), total on any bytes and rejecting by name, and after it the
encoder. The opcode bytes are the spec's general knowledge G6, G7, G9 (UNVERIFIED, log 25). -/

namespace Sys2Proof

open Sys2Proof.Machine (hi8 lo8 join16)

/-- The row of the opcode map an opcode byte selects (R83). -/
inductive Opcode where
  | di | ei | iret | clr | or | and | tm | ld | push | pop | jr | call | ret
deriving DecidableEq, Repr

/-- One row of R83: the opcode byte `b` is of this row when `b & mask = pattern`. -/
structure OpRow where
  op : Opcode
  pattern : Byte
  mask : Byte
deriving DecidableEq, Repr

/-- Why bytes are not an instruction of the subset. -/
inductive DecodeError where
  /-- There is no byte to decode. -/
  | noBytes
  /-- The first byte matches no row of R83 (R84). -/
  | opcodeOutsideSubset (b0 : Byte)
  /-- The opcode's operand bytes are missing. -/
  | truncated (b0 : Byte)
deriving DecidableEq, Repr

/-- The opcode map of R83. -/
def opcodeMap : List OpRow :=
  [⟨.di, 0x8F#8, 0xFF#8⟩, ⟨.ei, 0x9F#8, 0xFF#8⟩, ⟨.iret, 0xBF#8, 0xFF#8⟩,
   ⟨.clr, 0xB0#8, 0xFF#8⟩, ⟨.or, 0x46#8, 0xFF#8⟩, ⟨.and, 0x56#8, 0xFF#8⟩,
   ⟨.tm, 0x76#8, 0xFF#8⟩, ⟨.ld, 0xE6#8, 0xFF#8⟩, ⟨.push, 0x70#8, 0xFF#8⟩,
   ⟨.pop, 0x50#8, 0xFF#8⟩, ⟨.jr, 0x0B#8, 0x0F#8⟩, ⟨.call, 0xD6#8, 0xFF#8⟩,
   ⟨.ret, 0xAF#8, 0xFF#8⟩]

/-- An opcode byte is of a row (R83). -/
def rowMatches (r : OpRow) (b0 : Byte) : Bool := b0 &&& r.mask == r.pattern

/-- The row an opcode byte selects, none when it is outside the subset (R83, R84). -/
def findOpcode (b0 : Byte) : Option Opcode :=
  (opcodeMap.find? fun r => rowMatches r b0).map OpRow.op

/-- The condition codes 0H to FH (R82). -/
def condTable : Vector Cond 16 :=
  #v[.f, .lt, .le, .ule, .ov, .mi, .z, .c, .always, .ge, .gt, .ugt, .nov, .pl, .nz, .nc]

/-- The condition a four-bit code names (R82). -/
def condOfCode (code : BitVec 4) : Cond := condTable[code.toNat]'code.isLt

/-- The four-bit code of a condition (R82). -/
def condCode : Cond → BitVec 4
  | .f => 0x0#4
  | .lt => 0x1#4
  | .le => 0x2#4
  | .ule => 0x3#4
  | .ov => 0x4#4
  | .mi => 0x5#4
  | .z => 0x6#4
  | .c => 0x7#4
  | .always => 0x8#4
  | .ge => 0x9#4
  | .gt => 0xA#4
  | .ugt => 0xB#4
  | .nov => 0xC#4
  | .pl => 0xD#4
  | .nz => 0xE#4
  | .nc => 0xF#4

/-- The first byte of JR: the condition code, then 1011B (R80). -/
def jrByte (cc : Cond) : Byte := condCode cc ++ 0xB#4

/-- The operands of an opcode taken from the bytes after it (R80, R81); none when bytes are
missing. -/
def takeOperands : Opcode → Byte → List Byte → Option (Instr × List Byte)
  | .di, _, rest => some (.di, rest)
  | .ei, _, rest => some (.ei, rest)
  | .iret, _, rest => some (.iret, rest)
  | .ret, _, rest => some (.ret, rest)
  | .clr, _, r :: rest => some (.clr r, rest)
  | .push, _, r :: rest => some (.push r, rest)
  | .pop, _, r :: rest => some (.pop r, rest)
  | .jr, b0, ra :: rest => some (.jr (condOfCode (b0.extractLsb' 4 4)) ra, rest)
  | .or, _, d :: im :: rest => some (.or d im, rest)
  | .and, _, d :: im :: rest => some (.and d im, rest)
  | .tm, _, d :: im :: rest => some (.tm d im, rest)
  | .ld, _, d :: im :: rest => some (.ld d im, rest)
  | .call, _, h :: l :: rest => some (.call (join16 h l), rest)
  | .clr, _, [] => none
  | .push, _, [] => none
  | .pop, _, [] => none
  | .jr, _, [] => none
  | .or, _, [] => none
  | .or, _, [_] => none
  | .and, _, [] => none
  | .and, _, [_] => none
  | .tm, _, [] => none
  | .tm, _, [_] => none
  | .ld, _, [] => none
  | .ld, _, [_] => none
  | .call, _, [] => none
  | .call, _, [_] => none

/-- The instruction at the front of the bytes, and the bytes after it (R80, R83, R84). -/
def decode : List Byte → Except DecodeError (Instr × List Byte)
  | [] => .error .noBytes
  | b0 :: rest =>
    match findOpcode b0 with
    | none => .error (.opcodeOutsideSubset b0)
    | some op =>
      match takeOperands op b0 rest with
      | none => .error (.truncated b0)
      | some r => .ok r

/-- The bytes of an instruction in ascending program-memory order (R80, R83). -/
def encode : Instr → List Byte
  | .di => [0x8F#8]
  | .ei => [0x9F#8]
  | .iret => [0xBF#8]
  | .clr dst => [0xB0#8, dst]
  | .or dst im => [0x46#8, dst, im]
  | .and dst im => [0x56#8, dst, im]
  | .tm dst im => [0x76#8, dst, im]
  | .ld dst im => [0xE6#8, dst, im]
  | .push src => [0x70#8, src]
  | .pop dst => [0x50#8, dst]
  | .jr cc ra => [jrByte cc, ra]
  | .call da => [0xD6#8, hi8 da, lo8 da]
  | .ret => [0xAF#8]

/-- The three bytes, lowest address first, of an instruction whose bits are `w` numbered as
spec/opcode_table.json numbers them: every bit from `nbits` on is 0. -/
def tableBytes (nbits w : Nat) : List Byte :=
  let v := w % 2 ^ nbits
  [BitVec.ofNat 8 v, BitVec.ofNat 8 (v / 2 ^ 8), BitVec.ofNat 8 (v / 2 ^ 16)]

/-- The instruction the decoder reads from those bytes. -/
def decodeTableWord (nbits w : Nat) : Option Instr :=
  match decode (tableBytes nbits w) with
  | .ok (i, _) => some i
  | .error _ => none

end Sys2Proof
end

