-- ==== Sys2Proof/Machine/Parameters.lean ====
section
/-! DEFINITION. The default parameters (R5) and what is computed from the parameters: `RF_IMPL`,
`SOURCES(n)`, and the check that the six register addresses are a sound choice. -/

namespace Sys2Proof.Machine

/-- The level each source of Table 7-1 asserts (R201). -/
def sourceLevel : Source → Level
  | .ext0 => 0
  | .ext1 => 1
  | .ext2 => 2
  | .ext3 => 3
  | .dav0 => 0
  | .dav1 => 1
  | .dav2 => 2
  | .comparator0 => 0
  | .comparator2 => 2
  | .tin => 2
  | .serialIn => 3
  | .timer0 => 4
  | .serialOut => 4
  | .timer1 => 5

/-- Table 7-1's superset of sources (R5, R201). -/
def allSources : List Source :=
  [.ext0, .ext1, .ext2, .ext3, .dav0, .dav1, .dav2, .comparator0, .comparator2, .tin,
   .serialIn, .timer0, .serialOut, .timer1]

/-- The default parameters of R5 (UNVERIFIED: the spec's general knowledge G1, G2, G4, G5: logs 2, 3, 4, 26;
the active edges are a DESIGN CHOICE, log 20). -/
def defaultParams : Params where
  iprAddr := 0xF9#8
  irqAddr := 0xFA#8
  imrAddr := 0xFB#8
  flagsAddr := 0xFC#8
  sphAddr := 0xFE#8
  splAddr := 0xFF#8
  edgeSelect := false
  ramProtect := false
  irq3OnP32 := false
  serialInEnabled := false
  stackInternal := true
  resetPc := 0x000C#16
  rfRanges := [(0x04#8, 0x7F#8), (0xFC#8, 0xFC#8), (0xFE#8, 0xFF#8)]
  sources := allSources
  edgeP31 := .falling
  edgeP32 := .falling
  edgeP33 := .falling

/-- `RF_IMPL(a)`: the location is plain read/write storage (R5, R25). -/
def rfImpl (p : Params) (a : Byte) : Bool :=
  p.rfRanges.any fun r => decide (r.1 ≤ a) && decide (a ≤ r.2)

/-- `SOURCES(n)` is not empty (R5, R210). -/
def hasSource (p : Params) (n : Level) : Bool :=
  p.sources.any fun src => decide (sourceLevel src = n)

/-- The six register addresses differ and lie in F0H to FFH, where R25 puts the control
registers. -/
def paramsWf (p : Params) : Bool :=
  decide ([p.iprAddr, p.irqAddr, p.imrAddr, p.flagsAddr, p.sphAddr, p.splAddr].Nodup) &&
  [p.iprAddr, p.irqAddr, p.imrAddr, p.flagsAddr, p.sphAddr, p.splAddr].all
    (fun a => decide (0xF0#8 ≤ a))

end Sys2Proof.Machine
end

