-- ==== Sys2Proof/Machine/State.lean ====
section
/-! DEFINITION. The machine's state (10_state.md section 1), the reasons a step can stop, and the
state after reset. -/

namespace Sys2Proof.Machine

/-- One move of an agent (R12): the CPU, the environment or reset. -/
inductive Turn where
  /-- The CPU makes one step (R270). -/
  | cpu
  /-- The event `Request(n)` (R210). -/
  | request (n : Level)
  /-- A source of Table 7-1 asserts its request (R201, R204). -/
  | source (src : Source)
  /-- A pin makes a transition (R211). -/
  | pin (p : Pin) (e : Edge)
  /-- The reset event (R300). -/
  | reset
deriving DecidableEq, Repr

/-- The machine. FLAGS and the stack pointer are bytes of `rf` (R21, R23). -/
structure State where
  /-- The device's parameters (R5); no step writes them (log 1). -/
  par : Params
  /-- Program memory (R60). -/
  pm : Memory
  /-- The register file's storage `RF[a]` (R24, R25). -/
  rf : Memory
  /-- External data memory (R60, R64). -/
  dm : Memory
  /-- The program counter (R20). -/
  pc : Addr
  /-- The Interrupt Request Register (R30). -/
  irq : Byte
  /-- The Interrupt Mask Register (R34). -/
  imr : Byte
  /-- The Interrupt Priority Register (R39). -/
  ipr : Byte
  /-- The first request flip-flops `REQ[n]` (R44). -/
  req : BitVec 6
  /-- The latch `IRQEN` (R46). -/
  irqen : Bool
  /-- The model's own field: which agents move next; when it is empty the CPU moves (log 10). -/
  env : List Turn
  /-- The model's own field: how many free values have been drawn (logs 7, 8, 9). -/
  draws : Nat
deriving DecidableEq, Repr

/-- What the spec calls `unspecified(reason)` (R10): the source forbids or does not define the
situation, and the machine stops. Each is a safe stop: the hardware goes on in a way no source
states. -/
inductive Fault where
  /-- A register write to IMR while `IMR[7]` = 1 (R37, U9). Raised by CLR, OR, AND, LD, POP. Safe. -/
  | imrChangedWhileEnabled
  /-- A register write to IPR while `IMR[7]` = 1 (R42, U9). Raised by CLR, OR, AND, LD, POP. Safe. -/
  | iprChangedWhileEnabled
  /-- A 1 written to the reserved `IMR[6]` (R36, U5). Raised by OR, AND, LD, POP. Safe. -/
  | imrBit6Reserved
  /-- The interrupt cycle meets a group pattern of IPR that is "Not Used" (R228, U3). Raised at the
  interrupt condition. Safe. -/
  | iprGroupNotUsed
deriving DecidableEq, Repr

/-- What the spec calls `refuse(reason)` (R10): the spec gives the situation no meaning. Each is a
safe stop. -/
inductive Refusal where
  /-- An instruction that has no meaning yet. Raised by an arm of `exec`. Safe. -/
  | notModelled (mnemonic : String)
  /-- The bytes at PC are no instruction of the subset (R84). Raised by the CPU step. Safe. -/
  | undecodable (reason : DecodeError)
  /-- A register operand E0H to EFH (R25 to R27, D26). Raised by every register operand. Safe. -/
  | workingRegister (a : Byte)
  /-- A register operand that is not implemented (R26, R27, D27). Raised by every register operand.
  Safe. -/
  | registerOutsideModel (a : Byte)
  /-- A 1 written to `IMR[6]` of a device with RAM Protect (R36, D12). Raised by OR, AND, LD, POP.
  Safe. -/
  | ramProtectFunction
  /-- A stack access outside the general registers (R64, D18). Raised by PUSH, POP, CALL, RET, IRET
  and the interrupt cycle. Safe. -/
  | stackOutsideGeneral (a : Byte)
  /-- PUSH of SPL or SPH (R125, D18). Raised by PUSH. Safe. -/
  | pushOfStackPointer
  /-- POP into SPL or SPH (R126, D18). Raised by POP. Safe. -/
  | popIntoStackPointer
deriving DecidableEq, Repr

/-- The state right after reset (R49, R300), with the default parameters and no program. What the
spec leaves undefined holds 0 (DESIGN CHOICE, logs 5, 6, 11). -/
def State.reset : State where
  par := defaultParams
  pm := []
  rf := []
  dm := []
  pc := defaultParams.resetPc
  irq := 0x00#8
  imr := 0x00#8
  ipr := 0x00#8
  req := 0#6
  irqen := false
  env := []
  draws := 0

end Sys2Proof.Machine
end

