-- ==== Sys2Proof/Machine/Ops.lean ====
section
/-! DEFINITION. The named operations over the state: sequencing of outcomes, raw storage, FLAGS and
SP, the stack (R64, R65), and the interrupt cycle with the return from it (R230, R102). -/

namespace Sys2Proof.Machine

/-- The outcome of an operation that gives a value of type `α`. -/
abbrev Res (α : Type) := Host.Outcome α Fault Refusal

/-- Run `o`, then `k` on what it gives; a stop of either is the stop of both. -/
def andThen {α β : Type} (o : Res α) (k : α → Res β) : Res β :=
  match o with
  | .next a => k a
  | .fault r => .fault r
  | .refused r => .refused r

/-- PC moved past `n` bytes, modulo 65 536 (R20). -/
def State.advance (s : State) (n : Nat) : State := { s with pc := s.pc + BitVec.ofNat 16 n }

/-- The raw storage byte `RF[a]` (R9, R25). -/
def State.readRf (s : State) (a : Byte) : Byte := s.rf.read a.toNat

/-- `RF[a] <- v` (R25). -/
def State.writeRf (s : State) (a v : Byte) : State := { s with rf := s.rf.write a.toNat v }

/-- `MemRead(PM, a, 1)` (R61). -/
def State.readPm (s : State) (a : Addr) : Byte := s.pm.read a.toNat

/-- FLAGS, which is `RF[FLAGS_ADDR]` (R21). -/
def State.flags (s : State) : Byte := s.readRf s.par.flagsAddr

/-- `FLAGS <- v` (R21). -/
def State.setFlags (s : State) (v : Byte) : State := s.writeRf s.par.flagsAddr v

/-- SP: SPL with an internal stack, `{SPH, SPL}` with an external one (R23). The eight bits of the
internal SP stand in the low half (log 27). -/
def State.sp (s : State) : Addr :=
  if s.par.stackInternal then zext16 (s.readRf s.par.splAddr)
  else join16 (s.readRf s.par.sphAddr) (s.readRf s.par.splAddr)

/-- `SP <- w`: SPL alone with an internal stack, SPH and SPL with an external one (R23). -/
def State.setSp (s : State) (w : Addr) : State :=
  if s.par.stackInternal then s.writeRf s.par.splAddr (lo8 w)
  else (s.writeRf s.par.sphAddr (hi8 w)).writeRf s.par.splAddr (lo8 w)

/-- `STK_OK(a)`: a general register of the register file (R64). -/
def stkOk (p : Params) (a : Byte) : Bool := rfImpl p a && decide (a < 0xF0#8)

/-- `MemRead(STK, a, 1)` (R64). -/
def readStk (a : Addr) (s : State) : Res Byte :=
  if s.par.stackInternal then
    if stkOk s.par (lo8 a) then .next (s.readRf (lo8 a))
    else .refused (.stackOutsideGeneral (lo8 a))
  else .next (s.dm.read a.toNat)

/-- `MemWrite(STK, a, 1, v)` (R64). -/
def writeStk (a : Addr) (v : Byte) (s : State) : Res State :=
  if s.par.stackInternal then
    if stkOk s.par (lo8 a) then .next (s.writeRf (lo8 a) v)
    else .refused (.stackOutsideGeneral (lo8 a))
  else .next { s with dm := s.dm.write a.toNat v }

/-- `Push8(v)`: decrement SP, then write (R65). -/
def push8 (v : Byte) (s : State) : Res State :=
  let s1 := s.setSp (s.sp - 1#16)
  writeStk s1.sp v s1

/-- `Pop8()`: read, then increment SP (R65). -/
def pop8 (s : State) : Res (Byte × State) :=
  andThen (readStk s.sp s) fun v => .next (v, s.setSp (s.sp + 1#16))

/-- Push a program address, low byte first (R63, R151, R230). -/
def pushAddr (w : Addr) (s : State) : Res State :=
  andThen (push8 (lo8 w) s) (push8 (hi8 w))

/-- Pop a program address into PC, high byte first (R102, R152). -/
def popPc (s : State) : Res State :=
  andThen (pop8 s) fun h => andThen (pop8 h.2) fun l => .next { l.2 with pc := join16 h.1 l.1 }

/-- The vector of level n: `{PM[2n], PM[2n + 1]}` (R62, R63, R234). -/
def vector (s : State) (n : Level) : Addr :=
  join16 (s.readPm (BitVec.ofNat 16 (2 * n.val))) (s.readPm (BitVec.ofNat 16 (2 * n.val + 1)))

/-- The interrupt cycle `take_interrupt(n)` (R230 to R234): the serviced request withdrawn, PC and
FLAGS pushed, the master enable cleared, PC loaded from the level's vector. -/
def takeInterrupt (n : Level) (s : State) : Res State :=
  let s0 := { s with irq := s.irq &&& ~~~(levelBit n) }
  andThen (pushAddr s0.pc s0) fun s1 =>
  andThen (push8 s1.flags s1) fun s2 =>
  .next { s2 with imr := clearBit7 s2.imr, pc := vector s2 n }

/-- The return from an interrupt (R102): FLAGS and PC popped, the master enable set. -/
def returnFromInterrupt (s : State) : Res State :=
  andThen (pop8 s) fun f =>
  andThen (popPc (f.2.setFlags f.1)) fun s2 =>
  .next { s2 with imr := setBit7 s2.imr }

end Sys2Proof.Machine
end

