-- ==== Sys2Proof/WellFormed.lean ====
section
/-! DEFINITION. Which instructions are well formed: a register operand names a location, so it is
not one of E0H to EFH (R25, R81). Every other operand value is legal. -/

namespace Sys2Proof

/-- A register address names a location of the register file: its high nibble is not EH (R25). -/
def namesLocation (a : Byte) : Bool := a.extractLsb' 4 4 != 0xE#4

/-- The operand check of R81. -/
def Instr.wf (i : Instr) : Bool :=
  match i.regOperand with
  | none => true
  | some a => namesLocation a

end Sys2Proof
end

