-- ==== Sys2Proof/Machine/Operands.lean ====
section
/-! DEFINITION. The register operand: the architectural read `x[a]` (R26) and write `x[a] <- v`
(R27), with the access rules of IRQ (R31), IMR (R36, R37) and IPR (R42); and the three shapes of the
logical instructions built on them. -/

namespace Sys2Proof.Machine

/-- A read of IPR: a byte unrelated to the stored one (R42, U10), the free value `Config.iprRead`
(log 8). -/
def readIpr (s : State) : Byte × State :=
  (Config.iprRead s.draws, { s with draws := s.draws + 1 })

/-- `x[a]` (R26). The state that comes back differs only by a draw. -/
def readReg (a : Byte) (s : State) : Res (Byte × State) :=
  if a = s.par.irqAddr then .next (s.irq, s)
  else if a = s.par.imrAddr then .next (s.imr, s)
  else if a = s.par.iprAddr then .next (readIpr s)
  else if !namesLocation a then .refused (.workingRegister a)
  else if rfImpl s.par a then .next (s.readRf a, s)
  else .refused (.registerOutsideModel a)

/-- `WriteIRQ(v)` (R31): ignored while `IRQEN` = 0; bits 7:6 stored only with `EDGE_SELECT`. A change of
the selected edge makes no request by itself, where R313 says nothing (DESIGN CHOICE, log 30). -/
def writeIrq (v : Byte) (s : State) : State :=
  if s.irqen then { s with irq := if s.par.edgeSelect then v else withLow6 0x00#8 v } else s

/-- `WriteIMR(v)` (R36, R37). -/
def writeImr (v : Byte) (s : State) : Res State :=
  if s.imr.getLsbD 7 then .fault .imrChangedWhileEnabled
  else if v.getLsbD 6 then
    if s.par.ramProtect then .refused .ramProtectFunction else .fault .imrBit6Reserved
  else .next { s with imr := v }

/-- `WriteIPR(v)` (R42): bits 5:0 are stored, bits 7:6 of the written byte ignored. -/
def writeIpr (v : Byte) (s : State) : Res State :=
  if s.imr.getLsbD 7 then .fault .iprChangedWhileEnabled
  else .next { s with ipr := withLow6 s.ipr v }

/-- `x[a] <- v` (R27). -/
def writeReg (a v : Byte) (s : State) : Res State :=
  if a = s.par.irqAddr then .next (writeIrq v s)
  else if a = s.par.imrAddr then writeImr v s
  else if a = s.par.iprAddr then writeIpr v s
  else if !namesLocation a then .refused (.workingRegister a)
  else if rfImpl s.par a then .next (s.writeRf a v)
  else .refused (.registerOutsideModel a)

/-- The state with `LogicFlags(r)` done (R127). -/
def State.withLogicFlags (s : State) (r : Byte) : State := s.setFlags (logicFlags r s.flags)

/-- Read, combine, write back, set the flags from the computed result (R121, R122, R127). -/
def combineInto (f : Byte → Byte) (dst : Byte) (s : State) : Res State :=
  andThen (readReg dst s) fun t =>
  andThen (writeReg dst (f t.1) t.2) fun s2 =>
  .next (s2.withLogicFlags (f t.1))

/-- Read, combine, set the flags, write nothing else (R123, R127). -/
def combineTest (f : Byte → Byte) (dst : Byte) (s : State) : Res State :=
  andThen (readReg dst s) fun t => .next (t.2.withLogicFlags (f t.1))

/-- SPL or SPH (R125, R126). -/
def isStackPointer (p : Params) (a : Byte) : Bool :=
  decide (a = p.splAddr) || decide (a = p.sphAddr)

end Sys2Proof.Machine
end

