-- ==== Sys2Proof/Machine/ControlTransfer.lean ====
section
/-! DEFINITION. JR, CALL and RET (42_control_transfer.md). -/

namespace Sys2Proof.Machine

/-- JR (R150): relative to the following instruction, modulo 65 536. -/
def execJr (cc : Cond) (ra : Byte) (s : State) : Res State :=
  let s1 := s.advance 2
  .next (if condHolds cc s1.flags then { s1 with pc := s1.pc + sext16 ra } else s1)

/-- CALL (R151): the address of the following instruction pushed, low byte first. -/
def execCall (da : Addr) (s : State) : Res State :=
  let s1 := s.advance 3
  andThen (pushAddr s1.pc s1) fun s2 => .next { s2 with pc := da }

/-- RET (R152). -/
def execRet (s : State) : Res State := popPc (s.advance 1)

end Sys2Proof.Machine
end

