-- ==== Sys2Proof/Machine/InterruptControl.lean ====
section
/-! DEFINITION. DI, EI and IRET (40_interrupt_control.md). -/

namespace Sys2Proof.Machine

/-- DI (R100): `IMR[7] <- 0`. -/
def execDi (s : State) : Res State :=
  .next { s.advance 1 with imr := clearBit7 s.imr }

/-- EI (R101): `IMR[7] <- 1` and `IRQEN <- 1`. -/
def execEi (s : State) : Res State :=
  .next { s.advance 1 with imr := setBit7 s.imr, irqen := true }

/-- IRET (R102). -/
def execIret (s : State) : Res State := returnFromInterrupt (s.advance 1)

end Sys2Proof.Machine
end

