-- ==== Sys2Proof/Machine/RegisterLogic.lean ====
section
/-! DEFINITION. CLR, OR, AND, TM, LD, PUSH and POP (41_register_logic.md). -/

namespace Sys2Proof.Machine

/-- CLR (R120): no read, no flags. -/
def execClr (dst : Byte) (s : State) : Res State := writeReg dst 0x00#8 (s.advance 2)

/-- OR (R121). -/
def execOr (dst im : Byte) (s : State) : Res State := combineInto (fun t => t ||| im) dst (s.advance 3)

/-- AND (R122). -/
def execAnd (dst im : Byte) (s : State) : Res State := combineInto (fun t => t &&& im) dst (s.advance 3)

/-- TM (R123): as AND, but only the flags are written. -/
def execTm (dst im : Byte) (s : State) : Res State := combineTest (fun t => t &&& im) dst (s.advance 3)

/-- LD (R124): no read, no flags. -/
def execLd (dst im : Byte) (s : State) : Res State := writeReg dst im (s.advance 3)

/-- PUSH (R125): the stack pointer itself is refused. -/
def execPush (src : Byte) (s : State) : Res State :=
  if isStackPointer s.par src then .refused .pushOfStackPointer
  else andThen (readReg src (s.advance 2)) fun t => push8 t.1 t.2

/-- POP (R126): the stack pointer itself is refused. -/
def execPop (dst : Byte) (s : State) : Res State :=
  if isStackPointer s.par dst then .refused .popIntoStackPointer
  else andThen (pop8 (s.advance 2)) fun t => writeReg dst t.1 t.2

end Sys2Proof.Machine
end

