-- ==== Sys2Proof/Machine/Dispatch.lean ====
section
/-! DEFINITION. One arm per instruction of R83. -/

namespace Sys2Proof.Machine

/-- The effect of one instruction on a state whose PC is at the instruction's first byte. -/
def exec (i : Instr) (s : State) : Host.Outcome State Fault Refusal :=
  match i with
  | .di => Sys2Proof.Machine.execDi s
  | .ei => Sys2Proof.Machine.execEi s
  | .iret => Sys2Proof.Machine.execIret s
  | .clr dst => Sys2Proof.Machine.execClr dst s
  | .or dst im => Sys2Proof.Machine.execOr dst im s
  | .and dst im => Sys2Proof.Machine.execAnd dst im s
  | .tm dst im => Sys2Proof.Machine.execTm dst im s
  | .ld dst im => Sys2Proof.Machine.execLd dst im s
  | .push src => Sys2Proof.Machine.execPush src s
  | .pop dst => Sys2Proof.Machine.execPop dst s
  | .jr cc ra => Sys2Proof.Machine.execJr cc ra s
  | .call da => Sys2Proof.Machine.execCall da s
  | .ret => Sys2Proof.Machine.execRet s

end Sys2Proof.Machine
end

