-- ==== Sys2Proof/Machine/Environment.lean ====
section
/-! DEFINITION. The moves of the agents beside the CPU (R12): the request event (R210), the sources of
Table 7-1 and the pins that cause it (R201 to R204, R211), and the reset event (R300). -/

namespace Sys2Proof.Machine

/-- `Request(n)` (R210): sets `REQ[n]`. The event exists only where `SOURCES(n)` is not empty; a
schedule that holds it for another level changes nothing (log 20). -/
def request (n : Level) (s : State) : State :=
  if hasSource s.par n then { s with req := s.req ||| reqBit n } else s

/-- A source can assert a request: the device has it, and of the two alternative sources of IRQ3
only the one `SERIAL_IN_ENABLED` selects (R203). -/
def sourceActive (p : Params) (src : Source) : Bool :=
  p.sources.contains src &&
    match src with
    | .serialIn => p.serialInEnabled
    | .ext3 => !p.serialInEnabled
    | _ => true

/-- A source asserts its request (R201, R204): every source of level n acts only by setting
`REQ[n]`. -/
def assertSource (src : Source) (s : State) : State :=
  if sourceActive s.par src then { s with req := s.req ||| reqBit (sourceLevel src) } else s

/-- A transition is of the kind that counts (R211). -/
def edgeCounts (k : EdgeKind) (e : Edge) : Bool :=
  match k, e with
  | .falling, .falling => true
  | .falling, .rising => false
  | .rising, .falling => false
  | .rising, .rising => true
  | .both, _ => true

/-- The edges of P31 selected by `IRQ[7:6]`, or the device's (Table 7-4, R32, R211). -/
def p31Edges (s : State) : EdgeKind :=
  if s.par.edgeSelect then
    match s.irq.getLsbD 7, s.irq.getLsbD 6 with
    | false, _ => .falling
    | true, false => .rising
    | true, true => .both
  else s.par.edgeP31

/-- The edges of P32 selected by `IRQ[7:6]`, or the device's (Table 7-4, R32, R211). -/
def p32Edges (s : State) : EdgeKind :=
  if s.par.edgeSelect then
    match s.irq.getLsbD 7, s.irq.getLsbD 6 with
    | false, false => .falling
    | false, true => .rising
    | true, false => .falling
    | true, true => .both
  else s.par.edgeP32

/-- A pin's transition (R202, R203, R211): P33 is the external source of IRQ1, P31 of IRQ2, P32 of
IRQ0, and of IRQ3 too where it replaces P30, whose active edge is the falling one. -/
def pinMoves (p : Pin) (e : Edge) (s : State) : State :=
  match p with
  | .p33 => if edgeCounts s.par.edgeP33 e then assertSource .ext1 s else s
  | .p31 => if edgeCounts (p31Edges s) e then assertSource .ext2 s else s
  | .p32 =>
    if edgeCounts (p32Edges s) e then
      if s.par.irq3OnP32 then assertSource .ext3 (assertSource .ext0 s) else assertSource .ext0 s
    else s
  | .p30 =>
    if !s.par.irq3OnP32 && edgeCounts .falling e then assertSource .ext3 s else s

/-- The register file after the reset event: every byte drawn (R25, R300). Its laws stand in
Laws/Invariant.lean. -/
@[irreducible] def drawnRf (k : Nat) : Memory :=
  (List.range 256).foldl (fun m a => m.write a (Config.resetRf k (BitVec.ofNat 8 a))) []

/-- The reset event (R300). What R300 draws are free values (log 7); program memory and external
data memory stay. -/
def resetEvent (s : State) : State :=
  { s with
    irq := 0x00#8
    irqen := false
    imr := (Config.resetImr s.draws).setWidth 8
    ipr := Config.resetIpr s.draws
    req := Config.resetReq s.draws
    pc := s.par.resetPc
    rf := drawnRf s.draws
    draws := s.draws + 1 }

end Sys2Proof.Machine
end

