-- ==== Sys2Proof/Machine/Interrupts.lean ====
section
/-! DEFINITION. The sample point (R220), the interrupt condition (R224) and priority selection
(R226 to R228). -/

namespace Sys2Proof.Machine

/-- The sample point (R220). With `IRQEN` = 1 every waiting request moves into IRQ. With `IRQEN` = 0
each waiting request survives or vanishes (a free value, log 9); nothing is drawn when none waits. -/
def sample (s : State) : State :=
  if s.irqen then { s with irq := s.irq ||| s.req.setWidth 8, req := 0#6 }
  else if s.req = 0#6 then s
  else { s with req := s.req &&& Config.reqSurvives s.draws, draws := s.draws + 1 }

/-- `cand = IRQ[5:0] & IMR[5:0]` (R224). -/
def candidates (s : State) : BitVec 6 := (s.irq &&& s.imr).setWidth 6

/-- The interrupt condition: `IMR[7]` = 1 and some candidate (R224). -/
def interruptPending (s : State) : Bool := s.imr.getLsbD 7 && candidates s != 0#6

/-- The three groups of levels (R39). -/
inductive Group where
  | a | b | c
deriving DecidableEq, Repr

/-- The two members of a group, higher priority first (Table 7-2, R40). -/
def groupMembers (ipr : Byte) : Group → List Level
  | .a => if ipr.getLsbD 5 then [3, 5] else [5, 3]
  | .b => if ipr.getLsbD 2 then [0, 2] else [2, 0]
  | .c => if ipr.getLsbD 1 then [4, 1] else [1, 4]

/-- The order of the groups, highest first, by `IPR[4]`, `IPR[3]`, `IPR[0]`; none where Table 7-3
says "Not Used" (R41). -/
def groupOrder (ipr : Byte) : Option (List Group) :=
  match ipr.getLsbD 4, ipr.getLsbD 3, ipr.getLsbD 0 with
  | false, false, false => none
  | false, false, true => some [.c, .a, .b]
  | false, true, false => some [.a, .b, .c]
  | false, true, true => some [.a, .c, .b]
  | true, false, false => some [.b, .c, .a]
  | true, false, true => some [.c, .b, .a]
  | true, true, false => some [.b, .a, .c]
  | true, true, true => none

/-- `PriorityOrder(IPR)`: the six levels, highest first (R227). -/
def priorityOrder (ipr : Byte) : Option (List Level) :=
  (groupOrder ipr).map fun gs => gs.flatMap (groupMembers ipr)

/-- `Select(IPR, cand)`: the first level of the order that is a candidate (R226); none when the group
pattern is "Not Used" (R228) or nothing is a candidate. -/
def select (ipr : Byte) (cand : BitVec 6) : Option Level :=
  match priorityOrder ipr with
  | none => none
  | some order => order.find? fun n => cand.getLsbD n.val

/-- The interrupt the condition calls for (R224): the selected level's cycle, or the stop of R228. -/
def serveInterrupt (s : State) : Res State :=
  match select s.ipr (candidates s) with
  | none => .fault .iprGroupNotUsed
  | some n => takeInterrupt n s

end Sys2Proof.Machine
end

