-- ==== Sys2Proof/Machine/CpuStep.lean ====
section
/-! DEFINITION. One CPU step (R270) and the move of any agent (R12). -/

namespace Sys2Proof.Machine

/-- The bytes at PC, PC + 1, PC + 2, as many as the longest instruction has (R61, R80). -/
def fetch (s : State) : List Byte :=
  [s.readPm s.pc, s.readPm (s.pc + 1#16), s.readPm (s.pc + 2#16)]

/-- Decode and execute the instruction at PC (R270), refusing by name what is outside the subset
(R84). -/
def runInstruction (s : State) : Res State :=
  match decode (fetch s) with
  | .error reason => .refused (.undecodable reason)
  | .ok (i, _) => exec i s

/-- What the CPU does at a boundary once the requests are sampled (R224): the interrupt cycle, or
the instruction at PC. -/
def atBoundary (s : State) : Res State :=
  if interruptPending s then serveInterrupt s else runInstruction s

/-- `CpuStep` (R270). -/
def cpuStep (s : State) : Res State := atBoundary (sample s)

/-- The move of one agent (R12). -/
def takeTurn (t : Turn) (s : State) : Res State :=
  match t with
  | .cpu => cpuStep s
  | .request n => .next (request n s)
  | .source src => .next (assertSource src s)
  | .pin p e => .next (pinMoves p e s)
  | .reset => .next (resetEvent s)

/-- The agent that moves next: the first of the schedule, the CPU when it is empty (log 10). -/
def nextTurn (s : State) : Turn :=
  match s.env with
  | [] => .cpu
  | t :: _ => t

/-- The state with that agent taken from the schedule. -/
def dropTurn (s : State) : State := { s with env := s.env.tail }

/-- Three bytes stored at PC, PC + 1 and PC + 2 of program memory. -/
def placeAtPc (s : State) (bs : List Byte) : State :=
  match bs with
  | [b0, b1, b2] =>
    let pm1 := s.pm.write s.pc.toNat b0
    let pm2 := pm1.write (s.pc + 1#16).toNat b1
    { s with pm := pm2.write (s.pc + 2#16).toNat b2 }
  | _ => s

/-- The state with every request that the next boundary would serve withdrawn, so that the CPU
fetches (log 12). -/
def withoutPending (s : State) : State :=
  if s.imr.getLsbD 7 then
    { s with irq := s.irq &&& ~~~(s.imr &&& 0x3F#8), req := s.req &&& ~~~(s.imr.setWidth 6) }
  else s

end Sys2Proof.Machine
end

