-- ==== Sys2Proof/Machine/Step.lean ====
section
/-! DEFINITION. One step of the machine: one move of one agent. -/

namespace Sys2Proof.Machine

/-- One step: the agent whose turn it is moves (R12, R270). -/
def step (s : State) : Host.Outcome State Fault Refusal := takeTurn (nextTurn s) (dropTurn s)

/-- The state with an instruction stored at PC, no request that would be served first, and the CPU
to move (log 12). -/
def State.withFetchWord (s : State) (nbits w : Nat) : State :=
  { withoutPending (placeAtPc s (tableBytes nbits w)) with env := [] }

end Sys2Proof.Machine
end

