-- ==== Sys2Proof/Safety.lean ====
section
/-! DEFINITION. The terms claims are stated in: the invariant of the machine, when a register access
is legal and what it leaves, the stack's bytes, and the frames. Each is written from the rules it
names and holds no operation of the machine but raw reads and writes. -/

namespace Sys2Proof.Safety

open Sys2Proof.Machine

/-- The invariant: sound parameters, memories in canonical form, IRQ held at 00H until the first EI
(R33), and the reserved bits of IRQ at 0 without `EDGE_SELECT` (R32). -/
structure Inv (s : State) : Prop where
  params : paramsWf s.par = true
  pm : Memory.wf 65536 s.pm = true
  rf : Memory.wf 256 s.rf = true
  dm : Memory.wf 65536 s.dm = true
  held : s.irqen = false → s.irq = 0x00#8
  reserved : s.par.edgeSelect = false → s.irq.extractLsb' 6 2 = 0#2

/-- The bytes of program memory at PC, PC + 1 and PC + 2, addresses modulo 65 536 (R61, R80, R270). -/
def bytesAtPc (s : State) : List Byte :=
  [s.pm.read s.pc.toNat, s.pm.read ((s.pc.toNat + 1) % 65536), s.pm.read ((s.pc.toNat + 2) % 65536)]

/-- The level of each source, by the rows of Table 7-1 (R201); Serial In on IRQ3 and T0 and Serial Out
on IRQ4 as R201 restores those rows. -/
def tableLevel : Source → Level
  | .ext0 | .dav0 | .comparator0 => 0
  | .ext1 | .dav1 => 1
  | .ext2 | .dav2 | .tin | .comparator2 => 2
  | .ext3 | .serialIn => 3
  | .timer0 | .serialOut => 4
  | .timer1 => 5

/-- A step went on. -/
def Completes (o : Res State) : Prop := ∃ t, o = .next t

/-- `a` is the address of IRQ, IMR or IPR (R26). -/
def isInterruptRegister (p : Params) (a : Byte) : Bool :=
  a == p.irqAddr || a == p.imrAddr || a == p.iprAddr

/-- `a` is a location of plain storage (R25 to R27): not E0H to EFH, and `RF_IMPL(a)`. -/
def isPlain (p : Params) (a : Byte) : Bool :=
  !isInterruptRegister p a && !(decide (0xE0#8 ≤ a) && decide (a ≤ 0xEF#8)) && rfImpl p a

/-- A register operand can be read (R26). -/
def canRead (s : State) (a : Byte) : Bool := isInterruptRegister s.par a || isPlain s.par a

/-- What `x[a]` gives (R26); for IPR the next free value (R42, log 8). -/
def regValue (s : State) (a : Byte) : Byte :=
  if a = s.par.irqAddr then s.irq
  else if a = s.par.imrAddr then s.imr
  else if a = s.par.iprAddr then Config.iprRead s.draws
  else s.readRf a

/-- The state a read leaves: the same, but for the draw a read of IPR makes (R26, R42). -/
def afterRead (s : State) (a : Byte) : State :=
  if a ≠ s.par.irqAddr ∧ a ≠ s.par.imrAddr ∧ a = s.par.iprAddr then { s with draws := s.draws + 1 }
  else s

/-- A register operand can be written with v (R27, R36, R37, R42). -/
def canWrite (s : State) (a v : Byte) : Bool :=
  if a = s.par.irqAddr then true
  else if a = s.par.imrAddr then !s.imr.getLsbD 7 && !v.getLsbD 6
  else if a = s.par.iprAddr then !s.imr.getLsbD 7
  else isPlain s.par a

/-- What a legal write leaves (R27): IRQ as R31 says, IMR holds v (R37), IPR keeps its bits 7:6 and
takes v's bits 5:0 (R42), a plain location holds v. -/
def afterWrite (s : State) (a v : Byte) : State :=
  if a = s.par.irqAddr then
    { s with irq := if s.irqen then (if s.par.edgeSelect then v else v &&& 0x3F#8) else s.irq }
  else if a = s.par.imrAddr then { s with imr := v }
  else if a = s.par.iprAddr then { s with ipr := (s.ipr &&& 0xC0#8) ||| (v &&& 0x3F#8) }
  else { s with rf := s.rf.write a.toNat v }

/-- FLAGS after `LogicFlags(r)`: Z, S and V replaced, the rest kept (R127). -/
def afterLogic (s : State) (r : Byte) : State :=
  { s with rf := s.rf.write s.par.flagsAddr.toNat (logicFlags r s.flags) }

/-- The byte of the stack at an address: register-file storage or external data memory (R64). -/
def stackByte (s : State) (a : Addr) : Byte :=
  if s.par.stackInternal then s.readRf (lo8 a) else s.dm.read a.toNat

/-- The stack may be accessed at an address (R64): a general register with an internal stack,
anything with an external one. -/
def stackSlot (s : State) (a : Addr) : Bool :=
  !s.par.stackInternal || (rfImpl s.par (lo8 a) && decide (lo8 a < 0xF0#8))

/-- What a push of v leaves where the new slot is a stack slot (R65): SP is one less, modulo 256 with
an internal stack and modulo 65 536 with an external one (R23), and the byte at the new SP is v. -/
def afterPush (s : State) (v : Byte) : State :=
  let a := s.sp - 1#16
  if s.par.stackInternal then
    { s with rf := (s.rf.write s.par.splAddr.toNat (lo8 a)).write (lo8 a).toNat v }
  else
    { s with
      rf := (s.rf.write s.par.sphAddr.toNat (hi8 a)).write s.par.splAddr.toNat (lo8 a)
      dm := s.dm.write a.toNat v }

/-- The stack pointer's own registers (R23). -/
def spRegisters (p : Params) : List Byte :=
  if p.stackInternal then [p.splAddr] else [p.splAddr, p.sphAddr]

/-- The register-file bytes that stores to these stack addresses change (R64): none with an external
stack. -/
def stackRf (s : State) (slots : List Addr) : List Byte :=
  if s.par.stackInternal then slots.map lo8 else []

/-- The bytes of external data memory that stores to these stack addresses change (R64): none with
an internal stack. -/
def stackDm (s : State) (slots : List Addr) : List Nat :=
  if s.par.stackInternal then [] else slots.map BitVec.toNat

/-- Every byte of the register file but those listed reads as before. -/
def RfKept (s t : State) (but : List Byte) : Prop := ∀ a, a ∉ but → t.readRf a = s.readRf a

/-- Every byte of external data memory but those listed reads as before. -/
def DmKept (s t : State) (but : List Nat) : Prop := ∀ a, a ∉ but → t.dm.read a = s.dm.read a

/-- The parameters, every byte of program memory and the schedule are as before. -/
def DeviceKept (s t : State) : Prop :=
  t.par = s.par ∧ (∀ a, t.pm.read a = s.pm.read a) ∧ t.env = s.env

/-- The waiting requests and the latch `IRQEN` are as before. -/
def LatchesKept (s t : State) : Prop := t.req = s.req ∧ t.irqen = s.irqen

/-- IRQ, IMR and IPR are as before, but for the one whose address is listed. -/
def InterruptRegistersKept (s t : State) (but : List Byte) : Prop :=
  (s.par.irqAddr ∉ but → t.irq = s.irq) ∧
  (s.par.imrAddr ∉ but → t.imr = s.imr) ∧
  (s.par.iprAddr ∉ but → t.ipr = s.ipr)

/-- The flags OR, AND and TM do not write are as before: C, D, H, F2, F1 (R127). -/
def OtherFlagsKept (s t : State) : Prop := ∀ k, k ∉ [4, 5, 6] → t.flags.getLsbD k = s.flags.getLsbD k

end Sys2Proof.Safety
end

