-- ==== Sys2Proof/Certificates/Slice0/Obligations.lean ====
section
/-! DEFINITION. The statements for the provers. Each docstring names the rule of spec/ a statement
formalises; OBLIGATIONS.json lists them with their quotations. Where a statement is about a value the
model leaves free, it holds for every such value. -/

open Sys2Proof Sys2Proof.Machine Sys2Proof.Safety

/-! ### Encoding (30_encoding.md) -/

/-- Decoding the bytes of an instruction gives the instruction back, with every operand at every
value and whatever bytes follow (R80, R81, R83). -/
def Obligations.DecodeOfEncode : Prop :=
  ∀ (i : Instr) (rest : List Byte), decode (encode i ++ rest) = .ok (i, rest)

/-- Bytes that decode to an instruction are that instruction's bytes, so no two byte strings share a
meaning (R80, R83). -/
def Obligations.EncodeOfDecode : Prop :=
  ∀ (bs rest : List Byte) (i : Instr), decode bs = .ok (i, rest) → bs = encode i ++ rest

/-- A word of each format decodes to the instruction R83 gives it: DI, EI, IRET and RET (INH),
CLR IMR, PUSH IMR and POP IMR (R), JR Z (CC_RA), the R_IM forms on IRQ and IPR, CALL 0030H (DA). -/
def Obligations.WordsDecodeAsTheMapSays : Prop :=
  decodeTableWord 8 0x8F = some .di ∧ decodeTableWord 8 0x9F = some .ei ∧
  decodeTableWord 8 0xBF = some .iret ∧ decodeTableWord 8 0xAF = some .ret ∧
  decodeTableWord 16 0xFBB0 = some (.clr 0xFB#8) ∧
  decodeTableWord 16 0xFB70 = some (.push 0xFB#8) ∧
  decodeTableWord 16 0xFB50 = some (.pop 0xFB#8) ∧
  decodeTableWord 16 0x036B = some (.jr .z 0x03#8) ∧
  decodeTableWord 24 0x20FA46 = some (.or 0xFA#8 0x20#8) ∧
  decodeTableWord 24 0xFBFA56 = some (.and 0xFA#8 0xFB#8) ∧
  decodeTableWord 24 0x04FA76 = some (.tm 0xFA#8 0x04#8) ∧
  decodeTableWord 24 0x08F9E6 = some (.ld 0xF9#8 0x08#8) ∧
  decodeTableWord 24 0x3000D6 = some (.call 0x0030#16)

/-- R84: a first byte that begins no instruction's encoding is refused by name, by the decoder and by
the CPU step that fetches it (the spec's decision D16, log 19); 228 of the 256 values are such; JR
with the condition F only advances PC. -/
def Obligations.OpcodeOutsideSubsetRefused : Prop :=
  (∀ (b0 : Byte) (rest : List Byte), (∀ i : Instr, (encode i).head? ≠ some b0) →
    decode (b0 :: rest) = .error (.opcodeOutsideSubset b0)) ∧
  (∀ s : State, nextTurn s = .cpu →
    interruptPending (sample (dropTurn s)) = false →
    (∀ i : Instr, (encode i).head? ≠ some (s.pm.read s.pc.toNat)) →
    step s = .refused (.undecodable (.opcodeOutsideSubset (s.pm.read s.pc.toNat)))) ∧
  ((List.range 256).filter fun n => (findOpcode (BitVec.ofNat 8 n)).isNone).length = 228 ∧
  (∀ (ra : Byte) (s : State), exec (.jr .f ra) s = .next { s with pc := s.pc + 2#16 })

/-- R82: each four-bit code names its condition, and each condition tests the flags the table
gives it. -/
def Obligations.ConditionCodesTestTheirFlags : Prop :=
  ∀ f : Byte,
    let c := f.getLsbD 7
    let z := f.getLsbD 6
    let g := f.getLsbD 5
    let v := f.getLsbD 4
    condHolds (condOfCode 0x0#4) f = false ∧
    condHolds (condOfCode 0x1#4) f = (g ^^ v) ∧
    condHolds (condOfCode 0x2#4) f = (z || (g ^^ v)) ∧
    condHolds (condOfCode 0x3#4) f = (c || z) ∧
    condHolds (condOfCode 0x4#4) f = v ∧
    condHolds (condOfCode 0x5#4) f = g ∧
    condHolds (condOfCode 0x6#4) f = z ∧
    condHolds (condOfCode 0x7#4) f = c ∧
    condHolds (condOfCode 0x8#4) f = true ∧
    condHolds (condOfCode 0x9#4) f = !(g ^^ v) ∧
    condHolds (condOfCode 0xA#4) f = !(z || (g ^^ v)) ∧
    condHolds (condOfCode 0xB#4) f = (!c && !z) ∧
    condHolds (condOfCode 0xC#4) f = !v ∧
    condHolds (condOfCode 0xD#4) f = !g ∧
    condHolds (condOfCode 0xE#4) f = !z ∧
    condHolds (condOfCode 0xF#4) f = !c

/-! ### Reset (70_reset_and_hazards.md) -/

/-- The state after reset: IRQ is 00H and its register dead, the master enable is 0, PC is RESET_PC
with its default 000CH (R33, R38, R46; the values of PC and of the default parameters are the spec's
general knowledge, log 4). -/
def Obligations.ResetLeavesInterruptsOff : Prop :=
  State.reset.irq = 0x00#8 ∧ State.reset.irqen = false ∧ State.reset.imr.getLsbD 7 = false ∧
  State.reset.pc = State.reset.par.resetPc ∧ State.reset.par.resetPc = 0x000C#16

/-- R300: the reset event, from any state. What the rule draws is a free value, for every byte of the
register file one of its own. External data memory, program memory and the rest of the schedule stay
(log 7). -/
def Obligations.ResetEventReplacesState : Prop :=
  ∀ (s : State) (later : List Turn), s.env = .reset :: later →
    ∃ t, step s = .next t ∧
      t.irq = 0x00#8 ∧ t.irqen = false ∧
      t.imr.getLsbD 7 = false ∧ t.imr.extractLsb' 0 7 = Config.resetImr s.draws ∧
      t.ipr = Config.resetIpr s.draws ∧ t.req = Config.resetReq s.draws ∧
      t.pc = s.par.resetPc ∧
      (∀ a : Byte, t.readRf a = Config.resetRf s.draws a) ∧
      t.dm = s.dm ∧ t.pm = s.pm ∧ t.par = s.par ∧ t.env = later

/-! ### Invariants -/

/-- The invariant holds after reset. -/
def Obligations.ResetMeetsInv : Prop := Inv State.reset

/-- Every step of any agent keeps the invariant: canonical memories, IRQ held at 00H until the first
EI (R33), reserved bits 7:6 of IRQ at 0 (R32). -/
def Obligations.StepKeepsInv : Prop :=
  ∀ s t : State, Inv s → step s = .next t → Inv t

/-- No step writes program memory (R60, R73; the spec's decision D17) or changes the device's parameters
(log 1). -/
def Obligations.StepKeepsProgramMemory : Prop :=
  ∀ s t : State, step s = .next t → (∀ a, t.pm.read a = s.pm.read a) ∧ t.par = s.par

/-- R46: only an EI executed by the CPU sets `IRQEN`, and only the reset event clears it. -/
def Obligations.IrqenSetOnlyByEiClearedOnlyByReset : Prop :=
  ∀ s t : State, step s = .next t →
    (s.irqen = false → t.irqen = true →
      nextTurn s = .cpu ∧ ∃ rest, decode (bytesAtPc s) = .ok (.ei, rest)) ∧
    (s.irqen = true → t.irqen = false → nextTurn s = .reset)

/-- R35's list of writers of the master enable. A step sets `IMR[7]` only where the CPU executes EI,
IRET, or CLR, OR, AND, LD or POP with IMR as its destination; it clears it only where the CPU executes
DI or takes the interrupt cycle, or by the reset event: that a register write to IMR never clears it
rests on the spec's decision D10 (R37, log 15), by which such a write stops. -/
def Obligations.MasterEnableWriters : Prop :=
  ∀ s t : State, step s = .next t →
    (s.imr.getLsbD 7 = false → t.imr.getLsbD 7 = true →
      nextTurn s = .cpu ∧ ∃ i rest, decode (bytesAtPc s) = .ok (i, rest) ∧
        (i = .ei ∨ i = .iret ∨ i.writtenOperand = some s.par.imrAddr)) ∧
    (s.imr.getLsbD 7 = true → t.imr.getLsbD 7 = false →
      nextTurn s = .reset ∨
      (nextTurn s = .cpu ∧ interruptPending (sample (dropTurn s)) = true) ∨
      (nextTurn s = .cpu ∧ ∃ rest, decode (bytesAtPc s) = .ok (.di, rest)))

/-- R37: bits 6:0 of IMR change in a CPU step only through CLR, OR, AND, LD or POP with IMR as its
destination, executed while `IMR[7]` = 0 (that such a write stops otherwise is the spec's decision
D10, log 15); EI, DI, IRET and the cycle touch no other bit than bit 7. -/
def Obligations.MaskBitsChangeOnlyByWrite : Prop :=
  ∀ s t : State, nextTurn s = .cpu → step s = .next t →
    t.imr.extractLsb' 0 7 = s.imr.extractLsb' 0 7 ∨
    (s.imr.getLsbD 7 = false ∧
      ∃ i rest, decode (bytesAtPc s) = .ok (i, rest) ∧ i.writtenOperand = some s.par.imrAddr)

/-- IPR only decides selection (R226): an instruction's effect on everything but IPR does not depend
on the byte IPR holds, a read of IPR included (R42; the spec's decision D9, log 8). -/
def Obligations.IprDoesNotInfluenceInstructions : Prop :=
  ∀ (i : Instr) (s : State) (x : Byte),
    (∀ t, exec i s = .next t →
      ∃ y, exec i { s with ipr := x } = .next { t with ipr := y }) ∧
    (∀ r, exec i s = .fault r → exec i { s with ipr := x } = .fault r) ∧
    (∀ r, exec i s = .refused r → exec i { s with ipr := x } = .refused r)

/-! ### The step (60_exceptions.md) -/

/-- When it is the CPU's turn, no enabled request is pending after the sample, and the bytes of program
memory at PC, PC + 1 and PC + 2, modulo 65 536 (R61, R80), decode to an instruction, the step is that
instruction's effect on the sampled state (R270). -/
def Obligations.StepRunsDecodedInstruction : Prop :=
  ∀ (s : State) (i : Instr) (rest : List Byte), nextTurn s = .cpu →
    interruptPending (sample (dropTurn s)) = false →
    decode (bytesAtPc s) = .ok (i, rest) →
    step s = exec i (sample (dropTurn s))

/-- R224: after the sample, the cycle is taken exactly when `IMR[7]` = 1 and some bit of
`IRQ[5:0] & IMR[5:0]` is 1; else the instruction at PC executes. With `IMR[7]` = 0 no cycle
begins. -/
def Obligations.InterruptConditionDecides : Prop :=
  ∀ s : State, nextTurn s = .cpu →
    let u := sample (dropTurn s)
    ((u.imr.getLsbD 7 = true ∧ (∃ n : Level, u.irq.getLsbD n.val = true ∧ u.imr.getLsbD n.val = true)) →
      (∀ n, select u.ipr (u.irq.extractLsb' 0 6 &&& u.imr.extractLsb' 0 6) = some n →
        step s = takeInterrupt n u)) ∧
    (¬ (u.imr.getLsbD 7 = true ∧ (∃ n : Level, u.irq.getLsbD n.val = true ∧ u.imr.getLsbD n.val = true)) →
      step s = runInstruction u)

/-- R220: the sample point. With `IRQEN` = 1 every waiting request moves into IRQ; with `IRQEN` = 0
IRQ is untouched and each waiting request survives or vanishes as a free value says (the spec's
decision D7, log 9). Nothing else but the draw counter changes, whatever IMR holds. -/
def Obligations.SampleMovesRequests : Prop :=
  ∀ s : State,
    (∀ n : Level,
      (sample s).irq.getLsbD n.val =
        (s.irq.getLsbD n.val || (s.irqen && s.req.getLsbD n.val)) ∧
      (sample s).req.getLsbD n.val =
        (!s.irqen && s.req.getLsbD n.val && (Config.reqSurvives s.draws).getLsbD n.val)) ∧
    (sample s).irq.extractLsb' 6 2 = s.irq.extractLsb' 6 2 ∧
    ∃ k, sample s = { s with irq := (sample s).irq, req := (sample s).req, draws := k }

/-- R226: where the group pattern is used and something is pending, the selected level is a candidate
and stands in the priority order before every other candidate. -/
def Obligations.SelectTakesHighestCandidate : Prop :=
  ∀ (ipr : Byte) (cand : BitVec 6) (order : List Level),
    priorityOrder ipr = some order → cand ≠ 0#6 →
    ∃ n before after, select ipr cand = some n ∧ order = before ++ n :: after ∧
      cand.getLsbD n.val = true ∧ ∀ m ∈ before, cand.getLsbD m.val = false

/-- R227: both members of a higher group rank above both of a lower one, the group order and the
member order are those of Tables 7-2 and 7-3, every order holds each level once, and the 48 used
values of `IPR[5:0]` give 48 different orders. -/
def Obligations.PriorityOrderIsTables : Prop :=
  (∀ ipr : Byte,
    let a : List Level := if ipr.getLsbD 5 then [3, 5] else [5, 3]
    let b : List Level := if ipr.getLsbD 2 then [0, 2] else [2, 0]
    let c : List Level := if ipr.getLsbD 1 then [4, 1] else [1, 4]
    priorityOrder ipr =
      match ipr.getLsbD 4, ipr.getLsbD 3, ipr.getLsbD 0 with
      | false, false, false => none
      | false, false, true => some (c ++ a ++ b)
      | false, true, false => some (a ++ b ++ c)
      | false, true, true => some (a ++ c ++ b)
      | true, false, false => some (b ++ c ++ a)
      | true, false, true => some (c ++ b ++ a)
      | true, true, false => some (b ++ a ++ c)
      | true, true, true => none) ∧
  (∀ (ipr : Byte) (order : List Level), priorityOrder ipr = some order →
    order.Nodup ∧ ∀ n : Level, n ∈ order) ∧
  ((List.range 64).filterMap fun n => priorityOrder (BitVec.ofNat 8 n)).Nodup ∧
  ((List.range 64).filterMap fun n => priorityOrder (BitVec.ofNat 8 n)).length = 48

/-- R228: with a "Not Used" group pattern the step stops where a cycle would begin, even with a single
candidate (the spec's decision D8, log 16). -/
def Obligations.NotUsedPatternStopsTheCycle : Prop :=
  ∀ s : State, nextTurn s = .cpu → interruptPending (sample (dropTurn s)) = true →
    (s.ipr.getLsbD 4 = s.ipr.getLsbD 3 ∧ s.ipr.getLsbD 3 = s.ipr.getLsbD 0) →
    step s = .fault .iprGroupNotUsed

/-- R230: the interrupt cycle of level n, where the three bytes below SP are stack memory. PC low, PC
high and FLAGS are pushed, `IRQ[n]` and `IMR[7]` cleared, PC loaded from the vector, high byte first;
everything else stays. -/
def Obligations.InterruptCycleSavesAndVectors : Prop :=
  ∀ (n : Level) (s : State), paramsWf s.par = true →
    stackSlot s (s.sp - 1#16) = true → stackSlot s (s.sp - 2#16) = true →
    stackSlot s (s.sp - 3#16) = true →
    ∃ t, takeInterrupt n s = .next t ∧
      t.pc = s.pm.read (2 * n.val) ++ s.pm.read (2 * n.val + 1) ∧
      t.sp = s.sp - 3#16 ∧
      stackByte t (s.sp - 1#16) = s.pc.extractLsb' 0 8 ∧
      stackByte t (s.sp - 2#16) = s.pc.extractLsb' 8 8 ∧
      stackByte t (s.sp - 3#16) = s.flags ∧
      t.flags = s.flags ∧
      (∀ k, t.irq.getLsbD k = (s.irq.getLsbD k && k != n.val)) ∧
      (∀ k, t.imr.getLsbD k = (s.imr.getLsbD k && k != 7)) ∧
      t.ipr = s.ipr ∧ LatchesKept s t ∧ DeviceKept s t ∧ t.draws = s.draws ∧
      RfKept s t (spRegisters s.par ++ stackRf s [s.sp - 1#16, s.sp - 2#16, s.sp - 3#16]) ∧
      DmKept s t (stackDm s [s.sp - 1#16, s.sp - 2#16, s.sp - 3#16])

/-- The cycle's pushes are refused outside the stack region, whichever of the three it is (R64; the
spec's decision D18, log 18). -/
def Obligations.InterruptCycleNeedsStack : Prop :=
  ∀ (n : Level) (s : State), paramsWf s.par = true →
    (stackSlot s (s.sp - 1#16) = false →
      takeInterrupt n s = .refused (.stackOutsideGeneral (lo8 (s.sp - 1#16)))) ∧
    (stackSlot s (s.sp - 1#16) = true → stackSlot s (s.sp - 2#16) = false →
      takeInterrupt n s = .refused (.stackOutsideGeneral (lo8 (s.sp - 2#16)))) ∧
    (stackSlot s (s.sp - 1#16) = true → stackSlot s (s.sp - 2#16) = true →
      stackSlot s (s.sp - 3#16) = false →
      takeInterrupt n s = .refused (.stackOutsideGeneral (lo8 (s.sp - 3#16))))

/-- An interrupt cycle followed by IRET resumes the interrupted program: PC, FLAGS, SP and IMR are what
they were, with an internal and with an external stack (R102, R230, R231). -/
def Obligations.IretResumesInterruptedProgram : Prop :=
  ∀ (n : Level) (s : State), paramsWf s.par = true →
    stackSlot s (s.sp - 1#16) = true → stackSlot s (s.sp - 2#16) = true →
    stackSlot s (s.sp - 3#16) = true → s.imr.getLsbD 7 = true →
    ∃ t u, takeInterrupt n s = .next t ∧ exec .iret t = .next u ∧
      u.pc = s.pc ∧ u.flags = s.flags ∧ u.sp = s.sp ∧ u.imr = s.imr ∧ u.ipr = s.ipr ∧
      LatchesKept s u ∧ DeviceKept s u ∧
      RfKept s u (spRegisters s.par ++ stackRf s [s.sp - 1#16, s.sp - 2#16, s.sp - 3#16]) ∧
      DmKept s u (stackDm s [s.sp - 1#16, s.sp - 2#16, s.sp - 3#16])

/-- R225: a software interrupt. An OR that sets `IRQ[n]` makes the request, and the next boundary takes
level n's cycle, with the address of the instruction after the OR to be pushed, when the level is
enabled, the master enable set, no level before n in the priority order is enabled and pending, and
the CPU moves next, whatever the schedule holds after that. That the very next boundary sees the
write is the spec's decision D6 (log 24). -/
def Obligations.SoftwareInterruptIsTaken : Prop :=
  ∀ (n : Level) (s : State) (higher lower : List Level), paramsWf s.par = true →
    s.irqen = true → nextTurn s = .cpu → s.imr.getLsbD 7 = true → s.imr.getLsbD n.val = true →
    priorityOrder s.ipr = some (higher ++ n :: lower) →
    (∀ m ∈ higher,
      ((s.irq.getLsbD m.val || s.req.getLsbD m.val) && s.imr.getLsbD m.val) = false) →
    ∃ t, exec (.or s.par.irqAddr (levelBit n)) s = .next t ∧
      t.irq.getLsbD n.val = true ∧ t.pc = s.pc + 3#16 ∧
      step t = takeInterrupt n (sample (dropTurn t))

/-! ### The environment -/

/-- R210: the event `Request(n)` sets `REQ[n]` and nothing else, where `SOURCES(n)` is not empty. That it
has no other effect, and comes at any time, is the spec's decision D23; that the events come from a
schedule in the state is the model's choice (log 10). The sources' levels are those of Table 7-1
(R201). -/
def Obligations.RequestSetsFirstFlipFlop : Prop :=
  ∀ (n : Level) (s : State) (later : List Turn), s.env = .request n :: later →
    (∃ src ∈ s.par.sources, tableLevel src = n) →
    ∃ t, step s = .next t ∧ (∀ m : Level, t.req.getLsbD m.val = (s.req.getLsbD m.val || m == n)) ∧
      t = { s with env := later, req := t.req }

/-- The sources act only by setting `REQ` of the level Table 7-1 gives them (R201, R204), and of the two
sources of IRQ3 the one `SERIAL_IN_ENABLED` selects (R203). That a source the device lacks, and the
source of IRQ3 that is not selected, change nothing is the model's choice (log 20), the schedule too
(log 10). -/
def Obligations.SourcesRequestTheirLevel : Prop :=
  ∀ (src : Source) (s : State) (later : List Turn), s.env = .source src :: later →
    ∃ t, step s = .next t ∧ t = { s with env := later, req := t.req } ∧
      ∀ m : Level, t.req.getLsbD m.val =
        (s.req.getLsbD m.val ||
          (m == tableLevel src && s.par.sources.contains src &&
            !(src == .serialIn && !s.par.serialInEnabled) &&
            !(src == .ext3 && s.par.serialInEnabled)))

/-- R211 with Table 7-4 of R32: a pin's transition sets `REQ[n]` of the levels it is the external
source of and nothing else. On a device with `EDGE_SELECT`, `IRQ[7:6]` choose the transitions of P31
and P32; else the device does, as it does for P33. Log 20 marks what is the model's: DEDUCED from R203
that P30 counts on its falling edge ("a Low edge signal"), and that where P32 replaces P30 one
transition of P32 requests IRQ0 and IRQ3, IRQ3 by the edges that count for P32, Table 7-4's among
them; DESIGN CHOICE that the device's own edges are parameters, and that a pin whose source the device
lacks or `SERIAL_IN_ENABLED` excludes changes nothing. The schedule is log 10. -/
def Obligations.PinTransitionsRequestTheirLevels : Prop :=
  ∀ (p : Pin) (e : Edge) (s : State) (later : List Turn), s.env = .pin p e :: later →
    let d7 := s.irq.getLsbD 7
    let d6 := s.irq.getLsbD 6
    let has := fun src : Source => s.par.sources.contains src
    let chosen := fun (d : Bool) (k : EdgeKind) =>
      if s.par.edgeSelect then (e == .falling && !d) || (e == .rising && d) || (d7 && d6)
      else k == .both || (e == .falling && k == .falling) || (e == .rising && k == .rising)
    let p33 := s.par.edgeP33 == .both || (e == .falling && s.par.edgeP33 == .falling) ||
      (e == .rising && s.par.edgeP33 == .rising)
    let external3 := has .ext3 && !s.par.serialInEnabled
    ∃ t, step s = .next t ∧ t = { s with env := later, req := t.req } ∧
      ∀ m : Level, t.req.getLsbD m.val = (s.req.getLsbD m.val ||
        match p with
        | .p33 => m == 1 && p33 && has .ext1
        | .p31 => m == 2 && chosen d7 s.par.edgeP31 && has .ext2
        | .p32 => chosen d6 s.par.edgeP32 &&
            ((m == 0 && has .ext0) || (m == 3 && s.par.irq3OnP32 && external3))
        | .p30 => m == 3 && e == .falling && !s.par.irq3OnP32 && external3)

/-! ### Register operands (10_state.md) -/

/-- R26: what a register operand reads, by address; IPR reads as a free value, not as the byte it
holds (D9, log 8), and nothing but the draw counter changes; the two refusals are the spec's
decisions D26 and D27 (log 17). -/
def Obligations.RegisterReadByAddress : Prop :=
  ∀ (a : Byte) (s : State),
    readReg a s =
      if a = s.par.irqAddr then .next (s.irq, s)
      else if a = s.par.imrAddr then .next (s.imr, s)
      else if a = s.par.iprAddr then
        .next (Config.iprRead s.draws, { s with draws := s.draws + 1 })
      else if a.extractLsb' 4 4 = 0xE#4 then .refused (.workingRegister a)
      else if rfImpl s.par a then .next (s.readRf a, s)
      else .refused (.registerOutsideModel a)

/-- R27: what a register operand writes, by address: IRQ by R31, IMR by R36 and R37, IPR by R42, a
plain location as storage. Which writes stop is the spec's decision: D10 and D12 for IMR and IPR (log
15), D26 and D27 for the two refusals (log 17). That IPR keeps its bits 7:6 is DEDUCED from R42 (log
14); that a write which changes `IRQ[7:6]` leaves `REQ` alone is the model's choice, where R313 says
nothing (log 30). -/
def Obligations.RegisterWriteByAddress : Prop :=
  ∀ (a v : Byte) (s : State),
    writeReg a v s =
      if a = s.par.irqAddr then
        .next { s with
          irq := if s.irqen then (if s.par.edgeSelect then v else v &&& 0x3F#8) else s.irq }
      else if a = s.par.imrAddr then
        (if s.imr.getLsbD 7 then .fault .imrChangedWhileEnabled
         else if v.getLsbD 6 then
          (if s.par.ramProtect then .refused .ramProtectFunction else .fault .imrBit6Reserved)
         else .next { s with imr := v })
      else if a = s.par.iprAddr then
        (if s.imr.getLsbD 7 then .fault .iprChangedWhileEnabled
         else .next { s with ipr := (s.ipr &&& 0xC0#8) ||| (v &&& 0x3F#8) })
      else if a.extractLsb' 4 4 = 0xE#4 then .refused (.workingRegister a)
      else if rfImpl s.par a then .next { s with rf := s.rf.write a.toNat v }
      else .refused (.registerOutsideModel a)

/-- A byte of memory reads as last written, and a write leaves every other byte alone (R70, the spec's
decision D15). -/
def Obligations.MemoryReadsLastWrite : Prop :=
  ∀ (m : Memory) (a b : Nat) (v : Byte), (m.write a v).read b = if b = a then v else m.read b

/-- R127: the flag result of a logical operation, bit by bit. -/
def Obligations.LogicFlagsBits : Prop :=
  ∀ r f : Byte,
    (logicFlags r f).getLsbD 6 = decide (r = 0x00#8) ∧
    (logicFlags r f).getLsbD 5 = r.getLsbD 7 ∧
    (logicFlags r f).getLsbD 4 = false ∧
    ∀ k, k ∉ [4, 5, 6] → (logicFlags r f).getLsbD k = f.getLsbD k

/-! ### Results: every instruction completes -/

/-- R100: DI clears the master enable and advances PC; nothing else changes. -/
def Obligations.DiClearsMasterEnable : Prop :=
  ∀ s : State, ∃ m, exec .di s = .next { s with pc := s.pc + 1#16, imr := m } ∧
    ∀ k, m.getLsbD k = (s.imr.getLsbD k && k != 7)

/-- R101: EI sets the master enable and `IRQEN` and advances PC; nothing else changes. -/
def Obligations.EiSetsMasterEnableAndIrqen : Prop :=
  ∀ s : State, ∃ m, exec .ei s = .next { s with pc := s.pc + 1#16, imr := m, irqen := true } ∧
    ∀ k, m.getLsbD k = (s.imr.getLsbD k || k == 7)

/-- R102: IRET pops FLAGS, then PC high, then PC low, and sets the master enable; IRQ, IPR, the mask
bits and `IRQEN` stay. It does so exactly where the three bytes at SP are stack memory (R64; that it
stops elsewhere is the spec's decision D18, log 18). -/
def Obligations.IretPopsFlagsAndPc : Prop :=
  ∀ s : State, paramsWf s.par = true →
    (stackSlot s s.sp = true → stackSlot s (s.sp + 1#16) = true → stackSlot s (s.sp + 2#16) = true →
      ∃ t, exec .iret s = .next t ∧
        t.flags = stackByte s s.sp ∧
        t.pc = stackByte s (s.sp + 1#16) ++ stackByte s (s.sp + 2#16) ∧
        t.sp = s.sp + 3#16 ∧
        (∀ k, t.imr.getLsbD k = (s.imr.getLsbD k || k == 7)) ∧
        t.irq = s.irq ∧ t.ipr = s.ipr ∧ t.irqen = s.irqen) ∧
    (Completes (exec .iret s) →
      stackSlot s s.sp = true ∧ stackSlot s (s.sp + 1#16) = true ∧ stackSlot s (s.sp + 2#16) = true)

/-- R120: CLR writes 00H to its destination wherever that write is legal, and only there; it changes no
flag unless its destination is FLAGS. Which writes stop is the spec's decision: D10 for IMR and IPR
(R37, R42, log 15), D26 and D27 for E0H to EFH and unimplemented registers (R27, log 17). IRQ takes
the byte by R31; that `REQ` stays although the selected edge may change is the model's choice, where
R313 says nothing (log 30). That IPR keeps its bits 7:6 is DEDUCED from R42 (log 14). -/
def Obligations.ClrWritesZero : Prop :=
  ∀ (dst : Byte) (s : State),
    (canWrite s dst 0x00#8 = true →
      exec (.clr dst) s = .next (afterWrite { s with pc := s.pc + 2#16 } dst 0x00#8)) ∧
    (canWrite s dst 0x00#8 = false → ¬ Completes (exec (.clr dst) s))

/-- R124: LD writes its immediate to its destination wherever that write is legal, and only there; it
changes no flag unless its destination is FLAGS. Which writes stop is the spec's decision: D10 and D12
for IMR and IPR (R36, R37, R42, log 15), D26 and D27 for E0H to EFH and unimplemented registers (R27,
log 17). IRQ takes the byte by R31; that `REQ` stays although the selected edge may change is the
model's choice, where R313 says nothing (log 30). That IPR keeps its bits 7:6 is DEDUCED from R42
(log 14). -/
def Obligations.LdWritesImmediate : Prop :=
  ∀ (dst im : Byte) (s : State),
    (canWrite s dst im = true →
      exec (.ld dst im) s = .next (afterWrite { s with pc := s.pc + 3#16 } dst im)) ∧
    (canWrite s dst im = false → ¬ Completes (exec (.ld dst im) s))

/-- R121: OR. r is the destination's value or the immediate; r is written, then the flags are set
from r, on the written byte where the destination is FLAGS (R127, the spec's decision D1, log 23);
exactly where writing r is legal. With IPR as the destination the value read is a free value (R26,
R42; D9, log 8). Which writes stop is the spec's decision: D10 and D12 for IMR and IPR (R36, R37, R42,
log 15), D26 and D27 for E0H to EFH and unimplemented registers (R26, R27, log 17). IRQ takes r by
R31; that `REQ` stays although the selected edge may change is the model's choice, where R313 says
nothing (log 30). That IPR keeps its bits 7:6 is DEDUCED from R42 (log 14). -/
def Obligations.OrSetsBits : Prop :=
  ∀ (dst im : Byte) (s : State),
    let r := regValue s dst ||| im
    (canWrite s dst r = true →
      exec (.or dst im) s =
        .next (afterLogic (afterWrite (afterRead { s with pc := s.pc + 3#16 } dst) dst r) r)) ∧
    (canWrite s dst r = false → ¬ Completes (exec (.or dst im) s))

/-- R122: AND. r is the destination's value and the immediate; r is written, then the flags are set
from r, on the written byte where the destination is FLAGS (R127, the spec's decision D1, log 23);
exactly where writing r is legal. With IPR as the destination the value read is a free value (R26,
R42; D9, log 8). Which writes stop is the spec's decision: D10 and D12 for IMR and IPR (R36, R37, R42,
log 15), D26 and D27 for E0H to EFH and unimplemented registers (R26, R27, log 17). IRQ takes r by
R31; that `REQ` stays although the selected edge may change is the model's choice, where R313 says
nothing (log 30). That IPR keeps its bits 7:6 is DEDUCED from R42 (log 14). -/
def Obligations.AndClearsBits : Prop :=
  ∀ (dst im : Byte) (s : State),
    let r := regValue s dst &&& im
    (canWrite s dst r = true →
      exec (.and dst im) s =
        .next (afterLogic (afterWrite (afterRead { s with pc := s.pc + 3#16 } dst) dst r) r)) ∧
    (canWrite s dst r = false → ¬ Completes (exec (.and dst im) s))

/-- R123: TM sets the flags from the masked value of any readable register, IMR with the master
enable set among them, and writes nothing else (R127). IPR reads as a free value (R26, R42; the spec's
decision D9, log 8). Of no other operand does it go on: the refusals of E0H to EFH and of unimplemented
registers are the spec's decisions D26 and D27 (R26, log 17). -/
def Obligations.TmSetsFlagsOnly : Prop :=
  ∀ (dst im : Byte) (s : State),
    (canRead s dst = true →
      exec (.tm dst im) s =
        .next (afterLogic (afterRead { s with pc := s.pc + 3#16 } dst) (regValue s dst &&& im))) ∧
    (canRead s dst = false → ¬ Completes (exec (.tm dst im) s))

/-- R125: PUSH stores the value of any readable register but SP's own at the new SP, exactly where
that byte is stack memory; no flag changes. IPR is pushed as a free value (R26, R42; the spec's
decision D9, log 8). The refusal of SP's own registers and of other slots is the spec's decision D18
(R64, log 18), that of an unreadable operand its decisions D26 and D27 (R26, log 17). -/
def Obligations.PushStoresRegister : Prop :=
  ∀ (src : Byte) (s : State), paramsWf s.par = true →
    (src ≠ s.par.splAddr → src ≠ s.par.sphAddr → canRead s src = true →
      stackSlot s (s.sp - 1#16) = true →
      ∃ t, exec (.push src) s = .next t ∧ t.sp = s.sp - 1#16 ∧
        stackByte t t.sp = regValue s src ∧ t.pc = s.pc + 2#16 ∧ t.flags = s.flags) ∧
    (Completes (exec (.push src) s) →
      src ≠ s.par.splAddr ∧ src ≠ s.par.sphAddr ∧ canRead s src = true ∧
      stackSlot s (s.sp - 1#16) = true)

/-- R126: POP writes the byte at SP to any register it may write but SP's own, and SP is one more;
exactly where the byte at SP is stack memory and that write is legal. FLAGS changes only as the
destination. IRQ takes the byte by R31; that IPR keeps its bits 7:6 is DEDUCED from R42 (log 14). The
refusals of SP's own registers and of other slots are the spec's decision D18 (R64, log 18); the stops
of the write are its decisions D10 and D12 for IMR and IPR (R36, R37, R42, log 15), D26 and D27 for
E0H to EFH and unimplemented registers (R27, log 17). -/
def Obligations.PopLoadsRegister : Prop :=
  ∀ (dst : Byte) (s : State), paramsWf s.par = true →
    (dst ≠ s.par.splAddr → dst ≠ s.par.sphAddr → stackSlot s s.sp = true →
      canWrite s dst (stackByte s s.sp) = true →
      ∃ t, exec (.pop dst) s = .next t ∧ t.sp = s.sp + 1#16 ∧ t.pc = s.pc + 2#16 ∧
        t.irq = (afterWrite s dst (stackByte s s.sp)).irq ∧
        t.imr = (afterWrite s dst (stackByte s s.sp)).imr ∧
        t.ipr = (afterWrite s dst (stackByte s s.sp)).ipr ∧
        (isPlain s.par dst = true → t.readRf dst = stackByte s s.sp) ∧
        (dst ≠ s.par.flagsAddr → t.flags = s.flags)) ∧
    (Completes (exec (.pop dst) s) →
      dst ≠ s.par.splAddr ∧ dst ≠ s.par.sphAddr ∧ stackSlot s s.sp = true ∧
      canWrite s dst (stackByte s s.sp) = true)

/-- R150: JR. The target is the following instruction's address plus the sign-extended displacement,
modulo 65 536, taken when the condition holds of FLAGS. -/
def Obligations.JrBranchesOnCondition : Prop :=
  ∀ (cc : Cond) (ra : Byte) (s : State),
    exec (.jr cc ra) s =
      .next { s with
        pc := if condHolds cc s.flags then s.pc + 2#16 + ra.signExtend 16 else s.pc + 2#16 }

/-- R151: CALL pushes the following instruction's address, low byte first (R65), and jumps, exactly where
the two bytes below SP are stack memory; flags and IMR stay. That it stops elsewhere is the spec's
decision D18 (R64, log 18). -/
def Obligations.CallPushesReturnAddress : Prop :=
  ∀ (da : Addr) (s : State), paramsWf s.par = true →
    (stackSlot s (s.sp - 1#16) = true → stackSlot s (s.sp - 2#16) = true →
      ∃ t, exec (.call da) s = .next t ∧ t.pc = da ∧ t.sp = s.sp - 2#16 ∧
        stackByte t (s.sp - 1#16) = (s.pc + 3#16).extractLsb' 0 8 ∧
        stackByte t (s.sp - 2#16) = (s.pc + 3#16).extractLsb' 8 8 ∧
        t.flags = s.flags ∧ t.imr = s.imr) ∧
    (Completes (exec (.call da) s) →
      stackSlot s (s.sp - 1#16) = true ∧ stackSlot s (s.sp - 2#16) = true)

/-- R152: RET pops PC, high byte first (R65), exactly where the two bytes at SP are stack memory; flags
and IMR stay. That it stops elsewhere is the spec's decision D18 (R64, log 18). -/
def Obligations.RetPopsPc : Prop :=
  ∀ s : State, paramsWf s.par = true →
    (stackSlot s s.sp = true → stackSlot s (s.sp + 1#16) = true →
      ∃ t, exec .ret s = .next t ∧ t.sp = s.sp + 2#16 ∧
        t.pc = stackByte s s.sp ++ stackByte s (s.sp + 1#16) ∧
        t.flags = s.flags ∧ t.imr = s.imr) ∧
    (Completes (exec .ret s) → stackSlot s s.sp = true ∧ stackSlot s (s.sp + 1#16) = true)

/-- A CALL and the RET of the called routine come back to the instruction after the CALL with SP as
before (R151, R152). -/
def Obligations.RetReturnsFromCall : Prop :=
  ∀ (da : Addr) (s : State), paramsWf s.par = true →
    stackSlot s (s.sp - 1#16) = true → stackSlot s (s.sp - 2#16) = true →
    ∃ t u, exec (.call da) s = .next t ∧ exec .ret t = .next u ∧
      u.pc = s.pc + 3#16 ∧ u.sp = s.sp ∧ u.flags = s.flags ∧ u.imr = s.imr ∧ u.irq = s.irq

/-- The nesting procedure's PUSH IMR and POP IMR give the mask back, whatever is loaded between, as
long as the master enable and bit 6 are 0 (R125, R126, R240). -/
def Obligations.PopRestoresPushedMask : Prop :=
  ∀ (s : State) (mask : Byte), paramsWf s.par = true → stackSlot s (s.sp - 1#16) = true →
    s.imr.getLsbD 7 = false → s.imr.getLsbD 6 = false →
    mask.getLsbD 7 = false → mask.getLsbD 6 = false →
    ∃ t u w, exec (.push s.par.imrAddr) s = .next t ∧ exec (.ld s.par.imrAddr mask) t = .next u ∧
      u.imr = mask ∧ exec (.pop s.par.imrAddr) u = .next w ∧ w.imr = s.imr ∧ w.sp = s.sp

/-! ### Where instructions stop -/

/-- R37, R42, R320: CLR, LD, OR, AND and POP with IMR or IPR as their destination stop while the
master enable is set (the spec's decision D10, log 15); TM of IMR does not (R123). -/
def Obligations.MaskAndPriorityProtected : Prop :=
  ∀ (im : Byte) (s : State), paramsWf s.par = true → s.imr.getLsbD 7 = true →
    exec (.clr s.par.imrAddr) s = .fault .imrChangedWhileEnabled ∧
    exec (.ld s.par.imrAddr im) s = .fault .imrChangedWhileEnabled ∧
    exec (.or s.par.imrAddr im) s = .fault .imrChangedWhileEnabled ∧
    exec (.and s.par.imrAddr im) s = .fault .imrChangedWhileEnabled ∧
    exec (.clr s.par.iprAddr) s = .fault .iprChangedWhileEnabled ∧
    exec (.ld s.par.iprAddr im) s = .fault .iprChangedWhileEnabled ∧
    exec (.or s.par.iprAddr im) s = .fault .iprChangedWhileEnabled ∧
    exec (.and s.par.iprAddr im) s = .fault .iprChangedWhileEnabled ∧
    (stackSlot s s.sp = true →
      exec (.pop s.par.imrAddr) s = .fault .imrChangedWhileEnabled ∧
      exec (.pop s.par.iprAddr) s = .fault .iprChangedWhileEnabled) ∧
    Completes (exec (.tm s.par.imrAddr im) s)

/-- R36: with the master enable clear, an instruction that would write a 1 to `IMR[6]` stops, by the
fault of the reserved bit without RAM Protect and by the refusal of its function with it: LD, OR, AND
and POP, each by the byte it would write (the spec's decision D12, log 15). CLR writes no 1. -/
def Obligations.ReservedMaskBitStops : Prop :=
  ∀ (im : Byte) (s : State), paramsWf s.par = true → s.imr.getLsbD 7 = false →
    let stop : Res State :=
      if s.par.ramProtect then .refused .ramProtectFunction else .fault .imrBit6Reserved
    (im.getLsbD 6 = true → exec (.ld s.par.imrAddr im) s = stop) ∧
    ((s.imr ||| im).getLsbD 6 = true → exec (.or s.par.imrAddr im) s = stop) ∧
    ((s.imr &&& im).getLsbD 6 = true → exec (.and s.par.imrAddr im) s = stop) ∧
    (stackSlot s s.sp = true → (stackByte s s.sp).getLsbD 6 = true →
      exec (.pop s.par.imrAddr) s = stop) ∧
    Completes (exec (.clr s.par.imrAddr) s)

/-- R25 to R27, R81: a register operand E0H to EFH, and one outside the model, is refused by name in
every instruction that has one (the spec's decisions D26, D27, log 17); POP and PUSH of SP's own
registers have a refusal of their own (R125, R126). -/
def Obligations.RegisterOperandsRefused : Prop :=
  ∀ (a im : Byte) (s : State), paramsWf s.par = true → canRead s a = false →
    let why : Refusal :=
      if 0xE0#8 ≤ a ∧ a ≤ 0xEF#8 then .workingRegister a else .registerOutsideModel a
    exec (.clr a) s = .refused why ∧ exec (.ld a im) s = .refused why ∧
    exec (.or a im) s = .refused why ∧ exec (.and a im) s = .refused why ∧
    exec (.tm a im) s = .refused why ∧
    (a ≠ s.par.splAddr → a ≠ s.par.sphAddr →
      exec (.push a) s = .refused why ∧
      (stackSlot s s.sp = true → exec (.pop a) s = .refused why))

/-- R125, R126: PUSH of SPL or SPH and POP into them are refused, with either stack (the spec's decision
D18, log 18). -/
def Obligations.StackPointerNotPushedOrPopped : Prop :=
  ∀ s : State,
    exec (.push s.par.splAddr) s = .refused .pushOfStackPointer ∧
    exec (.push s.par.sphAddr) s = .refused .pushOfStackPointer ∧
    exec (.pop s.par.splAddr) s = .refused .popIntoStackPointer ∧
    exec (.pop s.par.sphAddr) s = .refused .popIntoStackPointer

/-- R64: a stack access outside the general registers is refused, whichever access of the instruction
it is: the stores of PUSH and CALL below SP, the loads of POP, RET and IRET from SP. An external
stack has no such address. The spec's decision D18 (log 18). -/
def Obligations.StackOutsideGeneralRefused : Prop :=
  ∀ (a : Byte) (da : Addr) (s : State), paramsWf s.par = true →
    (stackSlot s (s.sp - 1#16) = false →
      exec (.call da) s = .refused (.stackOutsideGeneral (lo8 (s.sp - 1#16))) ∧
      (canRead s a = true → a ≠ s.par.splAddr → a ≠ s.par.sphAddr →
        exec (.push a) s = .refused (.stackOutsideGeneral (lo8 (s.sp - 1#16))))) ∧
    (stackSlot s (s.sp - 1#16) = true → stackSlot s (s.sp - 2#16) = false →
      exec (.call da) s = .refused (.stackOutsideGeneral (lo8 (s.sp - 2#16)))) ∧
    (stackSlot s s.sp = false →
      exec .ret s = .refused (.stackOutsideGeneral (lo8 s.sp)) ∧
      exec .iret s = .refused (.stackOutsideGeneral (lo8 s.sp)) ∧
      (a ≠ s.par.splAddr → a ≠ s.par.sphAddr →
        exec (.pop a) s = .refused (.stackOutsideGeneral (lo8 s.sp)))) ∧
    (stackSlot s s.sp = true → stackSlot s (s.sp + 1#16) = false →
      exec .ret s = .refused (.stackOutsideGeneral (lo8 (s.sp + 1#16))) ∧
      exec .iret s = .refused (.stackOutsideGeneral (lo8 (s.sp + 1#16)))) ∧
    (stackSlot s s.sp = true → stackSlot s (s.sp + 1#16) = true →
      stackSlot s (s.sp + 2#16) = false →
      exec .iret s = .refused (.stackOutsideGeneral (lo8 (s.sp + 2#16)))) ∧
    (s.par.stackInternal = false → ∀ w : Addr, stackSlot s w = true)

/-! ### Frames -/

/-- CLR and LD change no register but their destination, no flag of FLAGS unless that is the
destination, no latch and no byte of memory. That `REQ` stays where a write to IRQ changes the
selected edge is the model's choice, where R313 says nothing (log 30). -/
def Obligations.ClearAndLoadFrame : Prop :=
  ∀ (dst im : Byte) (s t : State),
    (exec (.clr dst) s = .next t ∨ exec (.ld dst im) s = .next t) →
    InterruptRegistersKept s t [dst] ∧ RfKept s t [dst] ∧
    (isInterruptRegister s.par dst = true → RfKept s t []) ∧
    DmKept s t [] ∧ DeviceKept s t ∧ LatchesKept s t ∧ t.draws = s.draws

/-- OR and AND change no register but their destination and FLAGS, and in FLAGS only Z, S and V
unless it is the destination; no latch and no byte of memory. That `REQ` stays where a write to IRQ
changes the selected edge is the model's choice, where R313 says nothing (log 30). -/
def Obligations.LogicFrame : Prop :=
  ∀ (dst im : Byte) (s t : State),
    (exec (.or dst im) s = .next t ∨ exec (.and dst im) s = .next t) →
    InterruptRegistersKept s t [dst] ∧ RfKept s t [dst, s.par.flagsAddr] ∧
    (isInterruptRegister s.par dst = true → RfKept s t [s.par.flagsAddr]) ∧
    (dst ≠ s.par.flagsAddr → OtherFlagsKept s t) ∧
    DmKept s t [] ∧ DeviceKept s t ∧ LatchesKept s t

/-- TM changes Z, S and V of FLAGS and nothing else of the machine. -/
def Obligations.TestFrame : Prop :=
  ∀ (dst im : Byte) (s t : State), exec (.tm dst im) s = .next t →
    InterruptRegistersKept s t [] ∧ RfKept s t [s.par.flagsAddr] ∧ OtherFlagsKept s t ∧
    DmKept s t [] ∧ DeviceKept s t ∧ LatchesKept s t

/-- PUSH stores one byte, at SP less one, and changes SP; no flag, no other register, no other byte of
memory. -/
def Obligations.PushFrame : Prop :=
  ∀ (src : Byte) (s t : State), paramsWf s.par = true → exec (.push src) s = .next t →
    InterruptRegistersKept s t [] ∧ t.flags = s.flags ∧
    RfKept s t (spRegisters s.par ++ stackRf s [s.sp - 1#16]) ∧
    DmKept s t (stackDm s [s.sp - 1#16]) ∧ DeviceKept s t ∧ LatchesKept s t

/-- POP changes its destination and SP; no other register, no latch and no byte of memory. That `REQ`
stays where a write to IRQ changes the selected edge is the model's choice, where R313 says nothing
(log 30). -/
def Obligations.PopFrame : Prop :=
  ∀ (dst : Byte) (s t : State), paramsWf s.par = true → exec (.pop dst) s = .next t →
    InterruptRegistersKept s t [dst] ∧ RfKept s t (dst :: spRegisters s.par) ∧
    (isInterruptRegister s.par dst = true → RfKept s t (spRegisters s.par)) ∧
    (dst ≠ s.par.flagsAddr → t.flags = s.flags) ∧
    DmKept s t [] ∧ DeviceKept s t ∧ LatchesKept s t ∧ t.draws = s.draws

/-- CALL stores two bytes, at SP less one and SP less two, and changes SP and PC; RET changes SP and
PC; IRET changes SP, PC, FLAGS and `IMR[7]`. Nothing else changes. -/
def Obligations.CallAndReturnFrame : Prop :=
  ∀ (da : Addr) (s t : State), paramsWf s.par = true →
    (exec (.call da) s = .next t →
      InterruptRegistersKept s t [] ∧ t.flags = s.flags ∧
      RfKept s t (spRegisters s.par ++ stackRf s [s.sp - 1#16, s.sp - 2#16]) ∧
      DmKept s t (stackDm s [s.sp - 1#16, s.sp - 2#16]) ∧ DeviceKept s t ∧ LatchesKept s t ∧
      t.draws = s.draws) ∧
    (exec .ret s = .next t →
      InterruptRegistersKept s t [] ∧ t.flags = s.flags ∧ RfKept s t (spRegisters s.par) ∧
      DmKept s t [] ∧ DeviceKept s t ∧ LatchesKept s t ∧ t.draws = s.draws) ∧
    (exec .iret s = .next t →
      InterruptRegistersKept s t [s.par.imrAddr] ∧
      t.imr.extractLsb' 0 7 = s.imr.extractLsb' 0 7 ∧
      RfKept s t (s.par.flagsAddr :: spRegisters s.par) ∧
      DmKept s t [] ∧ DeviceKept s t ∧ LatchesKept s t ∧ t.draws = s.draws)

/-- DI, EI and JR touch no byte of any memory, no flag and no register but `IMR[7]` (DI, EI) and the
latch `IRQEN` (EI). -/
def Obligations.ControlFrame : Prop :=
  ∀ (cc : Cond) (ra : Byte) (s t : State),
    (exec .di s = .next t ∨ exec .ei s = .next t ∨ exec (.jr cc ra) s = .next t →
      t.imr.extractLsb' 0 7 = s.imr.extractLsb' 0 7 ∧ t.irq = s.irq ∧ t.ipr = s.ipr ∧
      t.req = s.req ∧ RfKept s t [] ∧ DmKept s t [] ∧ DeviceKept s t ∧ t.draws = s.draws) ∧
    (exec .di s = .next t → t.irqen = s.irqen) ∧
    (exec (.jr cc ra) s = .next t → t.irqen = s.irqen ∧ t.imr = s.imr)
end

