-- ==== Sys2Proof/Laws/Bits.lean ====
section
/-! SUPPORT. The laws of the bit helpers and of the flag result. -/

namespace Sys2Proof.Machine

theorem lo8_toNat (w : Addr) : (lo8 w).toNat = w.toNat % 256 := by simp [lo8]

theorem hi8_toNat (w : Addr) : (hi8 w).toNat = w.toNat / 256 := by
  have := w.isLt
  simp [hi8, Nat.shiftRight_eq_div_pow]
  omega

theorem join16_toNat (h l : Byte) : (join16 h l).toNat = h.toNat * 256 + l.toNat := by
  rw [join16, BitVec.toNat_append, ← Nat.shiftLeft_add_eq_or_of_lt l.isLt, Nat.shiftLeft_eq]

theorem zext16_toNat (v : Byte) : (zext16 v).toNat = v.toNat := by
  have := v.isLt
  simp [zext16]
  omega

@[simp] theorem join16_hi8_lo8 (w : Addr) : join16 (hi8 w) (lo8 w) = w := by
  apply BitVec.eq_of_toNat_eq
  rw [join16_toNat, hi8_toNat, lo8_toNat]; omega

@[simp] theorem lo8_join16 (h l : Byte) : lo8 (join16 h l) = l := by
  have := l.isLt
  apply BitVec.eq_of_toNat_eq
  rw [lo8_toNat, join16_toNat]; omega

@[simp] theorem hi8_join16 (h l : Byte) : hi8 (join16 h l) = h := by
  have := l.isLt
  apply BitVec.eq_of_toNat_eq
  rw [hi8_toNat, join16_toNat]; omega

@[simp] theorem lo8_zext16 (v : Byte) : lo8 (zext16 v) = v := by
  have := v.isLt
  apply BitVec.eq_of_toNat_eq
  rw [lo8_toNat, zext16_toNat]; omega

/-- A 16-bit value whose high byte is 0 is its low byte, extended. -/
theorem zext16_lo8 {w : Addr} (h : w.toNat < 256) : zext16 (lo8 w) = w := by
  apply BitVec.eq_of_toNat_eq
  rw [zext16_toNat, lo8_toNat]; omega

@[simp] theorem setBit7_msb (v : Byte) : (setBit7 v).getLsbD 7 = true := by simp [setBit7]

@[simp] theorem clearBit7_msb (v : Byte) : (clearBit7 v).getLsbD 7 = false := by simp [clearBit7]

/-- Clearing and setting bit 7 of a byte whose bit 7 is 1 gives the byte back. -/
theorem setBit7_clearBit7 {v : Byte} (h : v.getLsbD 7 = true) : setBit7 (clearBit7 v) = v := by
  revert h; revert v; decide

/-- Each bit of the flag byte after `LogicFlags(r)` (R127). -/
theorem logicFlags_bit (r f : Byte) (k : Nat) :
    (logicFlags r f).getLsbD k =
      if k = 6 then decide (r = 0x00#8)
      else if k = 5 then r.getLsbD 7
      else if k = 4 then false
      else f.getLsbD k := by
  by_cases hk : k < 8
  · by_cases hr : r = 0x00#8 <;> by_cases hs : r.getLsbD 7 <;>
      simp only [logicFlags, hr, hs, BitVec.getLsbD_or, BitVec.getLsbD_and] <;>
      interval_cases k <;> simp_all
  · have h8 : 8 ≤ k := by omega
    have h6 : k ≠ 6 := by omega
    have h5 : k ≠ 5 := by omega
    have h4 : k ≠ 4 := by omega
    simp [BitVec.getLsbD_of_ge _ _ h8, h6, h5, h4]

end Sys2Proof.Machine
end

