-- ==== Sys2Proof/Laws/Decode.lean ====
section
/-! SUPPORT. The laws of the opcode map: no two rows share an opcode byte, every encoding's first byte
selects its row, and a row's bytes are known. -/

namespace Sys2Proof

/-- The row of the opcode map each instruction is of. -/
def instrOpcode : Instr → Opcode
  | .di => .di
  | .ei => .ei
  | .iret => .iret
  | .clr _ => .clr
  | .or _ _ => .or
  | .and _ _ => .and
  | .tm _ _ => .tm
  | .ld _ _ => .ld
  | .push _ => .push
  | .pop _ => .pop
  | .jr _ _ => .jr
  | .call _ => .call
  | .ret => .ret

/-- No opcode byte is of two rows (R80: the first byte alone determines the format). -/
theorem opcodeMap_no_overlap :
    opcodeMap.Pairwise fun r q => ∀ b0 : Byte, ¬ (rowMatches r b0 = true ∧ rowMatches q b0 = true) := by
  decide +kernel

@[simp] theorem condOfCode_condCode (cc : Cond) : condOfCode (condCode cc) = cc := by
  cases cc <;> rfl

@[simp] theorem condCode_condOfCode (code : BitVec 4) : condCode (condOfCode code) = code := by
  revert code; decide

@[simp] theorem jrByte_code (cc : Cond) : (jrByte cc).extractLsb' 4 4 = condCode cc := by
  cases cc <;> rfl

@[simp] theorem findOpcode_jrByte (cc : Cond) : findOpcode (jrByte cc) = some .jr := by
  cases cc <;> rfl

/-- A byte whose low nibble is 1011B is the JR byte of its high nibble's condition (R80). -/
theorem jrByte_of_row (b0 : Byte) (h : findOpcode b0 = some .jr) :
    jrByte (condOfCode (b0.extractLsb' 4 4)) = b0 := by
  revert h; revert b0; decide +kernel

/-- The opcode bytes of the rows that have one (R83). -/
theorem findOpcode_byte (b0 : Byte) :
    (findOpcode b0 = some .di → b0 = 0x8F#8) ∧ (findOpcode b0 = some .ei → b0 = 0x9F#8) ∧
    (findOpcode b0 = some .iret → b0 = 0xBF#8) ∧ (findOpcode b0 = some .ret → b0 = 0xAF#8) ∧
    (findOpcode b0 = some .clr → b0 = 0xB0#8) ∧ (findOpcode b0 = some .or → b0 = 0x46#8) ∧
    (findOpcode b0 = some .and → b0 = 0x56#8) ∧ (findOpcode b0 = some .tm → b0 = 0x76#8) ∧
    (findOpcode b0 = some .ld → b0 = 0xE6#8) ∧ (findOpcode b0 = some .push → b0 = 0x70#8) ∧
    (findOpcode b0 = some .pop → b0 = 0x50#8) ∧ (findOpcode b0 = some .call → b0 = 0xD6#8) := by
  revert b0; decide +kernel

/-- Every opcode byte of the map begins some instruction's encoding. -/
theorem encode_of_findOpcode {b0 : Byte} {op : Opcode} (h : findOpcode b0 = some op) :
    ∃ i : Instr, (encode i).head? = some b0 := by
  have hb := findOpcode_byte b0
  cases op with
  | di => exact ⟨.di, by rw [hb.1 h]; rfl⟩
  | ei => exact ⟨.ei, by rw [hb.2.1 h]; rfl⟩
  | iret => exact ⟨.iret, by rw [hb.2.2.1 h]; rfl⟩
  | ret => exact ⟨.ret, by rw [hb.2.2.2.1 h]; rfl⟩
  | clr => exact ⟨.clr 0, by rw [hb.2.2.2.2.1 h]; rfl⟩
  | or => exact ⟨.or 0 0, by rw [hb.2.2.2.2.2.1 h]; rfl⟩
  | and => exact ⟨.and 0 0, by rw [hb.2.2.2.2.2.2.1 h]; rfl⟩
  | tm => exact ⟨.tm 0 0, by rw [hb.2.2.2.2.2.2.2.1 h]; rfl⟩
  | ld => exact ⟨.ld 0 0, by rw [hb.2.2.2.2.2.2.2.2.1 h]; rfl⟩
  | push => exact ⟨.push 0, by rw [hb.2.2.2.2.2.2.2.2.2.1 h]; rfl⟩
  | pop => exact ⟨.pop 0, by rw [hb.2.2.2.2.2.2.2.2.2.2.1 h]; rfl⟩
  | call => exact ⟨.call 0, by rw [hb.2.2.2.2.2.2.2.2.2.2.2 h]; rfl⟩
  | jr =>
    refine ⟨.jr (condOfCode (b0.extractLsb' 4 4)) 0, ?_⟩
    simp [encode, jrByte_of_row b0 h]

end Sys2Proof
end

