-- ==== Sys2Proof/Laws/Memory.lean ====
section
/-! SUPPORT. The laws of memory: a read after a write gives the byte written, a write leaves every
other address alone, and every operation keeps the canonical form. -/

namespace Sys2Proof.Machine

theorem Memory.read_erase_same (m : Memory) (a : Nat) : (m.erase a).read a = unlisted := by
  induction m with
  | nil => rfl
  | cons c m ih =>
    obtain ⟨b, v⟩ := c
    by_cases h : b = a <;> simp [Memory.erase, Memory.read, h, ih]

theorem Memory.read_erase_other (m : Memory) {a b : Nat} (h : b ≠ a) :
    (m.erase a).read b = m.read b := by
  induction m with
  | nil => rfl
  | cons c m ih =>
    obtain ⟨d, v⟩ := c
    by_cases hd : d = a
    · have : d ≠ b := by omega
      simp [Memory.erase, Memory.read, hd, ih]
      omega
    · simp [Memory.erase, Memory.read, hd, ih]

theorem Memory.read_insert_other (m : Memory) {a b : Nat} (v : Byte) (h : b ≠ a) :
    (m.insert a v).read b = m.read b := by
  induction m with
  | nil => simp [Memory.insert, Memory.read]; omega
  | cons c m ih =>
    obtain ⟨d, w⟩ := c
    by_cases hd : a < d
    · have : a ≠ b := by omega
      simp [Memory.insert, Memory.read, hd, this]
    · simp [Memory.insert, Memory.read, hd, ih]

theorem Memory.read_insert_same (m : Memory) (a : Nat) (v : Byte) :
    ((m.erase a).insert a v).read a = v := by
  induction m with
  | nil => simp [Memory.erase, Memory.insert, Memory.read]
  | cons c m ih =>
    obtain ⟨d, w⟩ := c
    by_cases hd : d = a
    · simp [Memory.erase, hd, ih]
    · by_cases hl : a < d <;> simp [Memory.erase, Memory.insert, Memory.read, hd, hl, ih]

@[simp] theorem Memory.read_write_same (m : Memory) (a : Nat) (v : Byte) :
    (m.write a v).read a = v := by
  unfold Memory.write
  split
  · rename_i h; rw [read_erase_same, h]
  · exact read_insert_same m a v

theorem Memory.read_write_other (m : Memory) {a b : Nat} (v : Byte) (h : b ≠ a) :
    (m.write a v).read b = m.read b := by
  unfold Memory.write
  split
  · exact read_erase_other m h
  · rw [read_insert_other _ _ h, read_erase_other m h]

theorem Memory.read_write (m : Memory) (a b : Nat) (v : Byte) :
    (m.write a v).read b = if b = a then v else m.read b := by
  by_cases h : b = a
  · subst h; simp
  · simp [h, read_write_other m v h]

theorem Memory.canonFrom_weaken {lo lo' : Nat} {m : Memory} (h : Memory.canonFrom lo m = true)
    (hl : lo' ≤ lo) : Memory.canonFrom lo' m = true := by
  cases m with
  | nil => rfl
  | cons c m =>
    obtain ⟨a, v⟩ := c
    simp only [Memory.canonFrom, Bool.and_eq_true, decide_eq_true_eq] at h ⊢
    exact ⟨⟨by omega, h.1.2⟩, h.2⟩

theorem Memory.canonFrom_erase {lo : Nat} {m : Memory} (a : Nat)
    (h : Memory.canonFrom lo m = true) : Memory.canonFrom lo (m.erase a) = true := by
  induction m generalizing lo with
  | nil => rfl
  | cons c m ih =>
    obtain ⟨b, v⟩ := c
    simp only [Memory.canonFrom, Bool.and_eq_true, decide_eq_true_eq] at h
    by_cases hb : b = a
    · simp only [Memory.erase, hb, if_true]
      exact ih (canonFrom_weaken h.2 (by omega))
    · simp only [Memory.erase, hb, if_false, Memory.canonFrom, Bool.and_eq_true, decide_eq_true_eq]
      exact ⟨h.1, ih h.2⟩

theorem Memory.canonFrom_insert {lo : Nat} {m : Memory} {a : Nat} {v : Byte} (hlo : lo ≤ a)
    (hv : v ≠ unlisted) (h : Memory.canonFrom lo (m.erase a) = true) :
    Memory.canonFrom lo ((m.erase a).insert a v) = true := by
  induction m generalizing lo with
  | nil => simp [Memory.erase, Memory.insert, Memory.canonFrom, hlo, hv]
  | cons c m ih =>
    obtain ⟨b, w⟩ := c
    by_cases hb : b = a
    · simp only [Memory.erase, hb, if_true] at h ⊢
      exact ih hlo h
    · simp only [Memory.erase, hb, if_false, Memory.canonFrom, Bool.and_eq_true,
        decide_eq_true_eq] at h ⊢
      by_cases hl : a < b
      · simp only [Memory.insert, hl, if_true, Memory.canonFrom, Bool.and_eq_true,
          decide_eq_true_eq, bne_iff_ne]
        exact ⟨⟨hlo, hv⟩, ⟨by omega, bne_iff_ne.mp h.1.2⟩, h.2⟩
      · simp only [Memory.insert, hl, if_false, Memory.canonFrom, Bool.and_eq_true,
          decide_eq_true_eq]
        exact ⟨h.1, ih (by omega) h.2⟩

theorem Memory.mem_erase {m : Memory} {a : Nat} {c : Host.Cell} (h : c ∈ m.erase a) : c ∈ m := by
  induction m with
  | nil => exact h
  | cons d m ih =>
    obtain ⟨b, v⟩ := d
    by_cases hb : b = a
    · simp only [Memory.erase, hb, if_true] at h
      exact List.mem_cons_of_mem _ (ih h)
    · simp only [Memory.erase, hb, if_false, List.mem_cons] at h ⊢
      exact h.imp id ih

theorem Memory.mem_insert {m : Memory} {a : Nat} {v : Byte} {c : Host.Cell}
    (h : c ∈ m.insert a v) : c = (a, v) ∨ c ∈ m := by
  induction m with
  | nil => simpa [Memory.insert] using h
  | cons d m ih =>
    obtain ⟨b, w⟩ := d
    by_cases hl : a < b
    · simpa [Memory.insert, hl] using h
    · simp only [Memory.insert, hl, if_false, List.mem_cons] at h ⊢
      rcases h with h | h
      · exact .inr (.inl h)
      · exact (ih h).imp id .inr

/-- A write inside the memory keeps its canonical form. -/
theorem Memory.wf_write {size : Nat} {m : Memory} (a : Nat) (v : Byte) (ha : a < size)
    (h : Memory.wf size m = true) : Memory.wf size (m.write a v) = true := by
  simp only [Memory.wf, Bool.and_eq_true, List.all_eq_true, decide_eq_true_eq] at h ⊢
  unfold Memory.write
  split
  · exact ⟨canonFrom_erase a h.1, fun c hc => h.2 c (mem_erase hc)⟩
  · rename_i hv
    refine ⟨canonFrom_insert (Nat.zero_le a) hv (canonFrom_erase a h.1), fun c hc => ?_⟩
    rcases mem_insert hc with rfl | hc
    · exact ha
    · exact h.2 c (mem_erase hc)

/-- The empty memory is in canonical form. -/
theorem Memory.wf_nil (size : Nat) : Memory.wf size [] = true := rfl

/-- A memory of a byte address space stays in canonical form. -/
theorem Memory.wf_write_byte {m : Memory} (a v : Byte) (h : Memory.wf 256 m = true) :
    Memory.wf 256 (m.write a.toNat v) = true := wf_write _ v a.isLt h

/-- A memory of a 16-bit address space stays in canonical form. -/
theorem Memory.wf_write_addr {m : Memory} (a : Addr) (v : Byte)
    (h : Memory.wf 65536 m = true) : Memory.wf 65536 (m.write a.toNat v) = true :=
  wf_write _ v a.isLt h

end Sys2Proof.Machine
end

