-- ==== Sys2Proof/Laws/State.lean ====
section
/-! SUPPORT. The small lemmas of the named state updates: for each update, what it leaves of every
field, and what the register file reads as after it. -/

namespace Sys2Proof.Machine

variable (s : State) (a b v r : Byte) (w : Addr) (n : Nat)

@[simp] theorem State.advance_par : (s.advance n).par = s.par := rfl
@[simp] theorem State.advance_pm : (s.advance n).pm = s.pm := rfl
@[simp] theorem State.advance_rf : (s.advance n).rf = s.rf := rfl
@[simp] theorem State.advance_dm : (s.advance n).dm = s.dm := rfl
@[simp] theorem State.advance_irq : (s.advance n).irq = s.irq := rfl
@[simp] theorem State.advance_imr : (s.advance n).imr = s.imr := rfl
@[simp] theorem State.advance_ipr : (s.advance n).ipr = s.ipr := rfl
@[simp] theorem State.advance_req : (s.advance n).req = s.req := rfl
@[simp] theorem State.advance_irqen : (s.advance n).irqen = s.irqen := rfl
@[simp] theorem State.advance_env : (s.advance n).env = s.env := rfl
@[simp] theorem State.advance_draws : (s.advance n).draws = s.draws := rfl

@[simp] theorem State.advance_pc : (s.advance n).pc = s.pc + BitVec.ofNat 16 n := rfl

@[simp] theorem State.writeRf_par : (s.writeRf a v).par = s.par := rfl
@[simp] theorem State.writeRf_pm : (s.writeRf a v).pm = s.pm := rfl
@[simp] theorem State.writeRf_dm : (s.writeRf a v).dm = s.dm := rfl
@[simp] theorem State.writeRf_pc : (s.writeRf a v).pc = s.pc := rfl
@[simp] theorem State.writeRf_irq : (s.writeRf a v).irq = s.irq := rfl
@[simp] theorem State.writeRf_imr : (s.writeRf a v).imr = s.imr := rfl
@[simp] theorem State.writeRf_ipr : (s.writeRf a v).ipr = s.ipr := rfl
@[simp] theorem State.writeRf_req : (s.writeRf a v).req = s.req := rfl
@[simp] theorem State.writeRf_irqen : (s.writeRf a v).irqen = s.irqen := rfl
@[simp] theorem State.writeRf_env : (s.writeRf a v).env = s.env := rfl
@[simp] theorem State.writeRf_draws : (s.writeRf a v).draws = s.draws := rfl

@[simp] theorem State.writeRf_rf : (s.writeRf a v).rf = s.rf.write a.toNat v := rfl

@[simp] theorem State.setFlags_par : (s.setFlags v).par = s.par := rfl
@[simp] theorem State.setFlags_pm : (s.setFlags v).pm = s.pm := rfl
@[simp] theorem State.setFlags_dm : (s.setFlags v).dm = s.dm := rfl
@[simp] theorem State.setFlags_pc : (s.setFlags v).pc = s.pc := rfl
@[simp] theorem State.setFlags_irq : (s.setFlags v).irq = s.irq := rfl
@[simp] theorem State.setFlags_imr : (s.setFlags v).imr = s.imr := rfl
@[simp] theorem State.setFlags_ipr : (s.setFlags v).ipr = s.ipr := rfl
@[simp] theorem State.setFlags_req : (s.setFlags v).req = s.req := rfl
@[simp] theorem State.setFlags_irqen : (s.setFlags v).irqen = s.irqen := rfl
@[simp] theorem State.setFlags_env : (s.setFlags v).env = s.env := rfl
@[simp] theorem State.setFlags_draws : (s.setFlags v).draws = s.draws := rfl

@[simp] theorem State.withLogicFlags_par : (s.withLogicFlags r).par = s.par := rfl
@[simp] theorem State.withLogicFlags_pm : (s.withLogicFlags r).pm = s.pm := rfl
@[simp] theorem State.withLogicFlags_dm : (s.withLogicFlags r).dm = s.dm := rfl
@[simp] theorem State.withLogicFlags_pc : (s.withLogicFlags r).pc = s.pc := rfl
@[simp] theorem State.withLogicFlags_irq : (s.withLogicFlags r).irq = s.irq := rfl
@[simp] theorem State.withLogicFlags_imr : (s.withLogicFlags r).imr = s.imr := rfl
@[simp] theorem State.withLogicFlags_ipr : (s.withLogicFlags r).ipr = s.ipr := rfl
@[simp] theorem State.withLogicFlags_req : (s.withLogicFlags r).req = s.req := rfl
@[simp] theorem State.withLogicFlags_irqen : (s.withLogicFlags r).irqen = s.irqen := rfl
@[simp] theorem State.withLogicFlags_env : (s.withLogicFlags r).env = s.env := rfl
@[simp] theorem State.withLogicFlags_draws : (s.withLogicFlags r).draws = s.draws := rfl

@[simp] theorem State.setSp_par : (s.setSp w).par = s.par := by unfold State.setSp; split <;> rfl
@[simp] theorem State.setSp_pm : (s.setSp w).pm = s.pm := by unfold State.setSp; split <;> rfl
@[simp] theorem State.setSp_dm : (s.setSp w).dm = s.dm := by unfold State.setSp; split <;> rfl
@[simp] theorem State.setSp_pc : (s.setSp w).pc = s.pc := by unfold State.setSp; split <;> rfl
@[simp] theorem State.setSp_irq : (s.setSp w).irq = s.irq := by unfold State.setSp; split <;> rfl
@[simp] theorem State.setSp_imr : (s.setSp w).imr = s.imr := by unfold State.setSp; split <;> rfl
@[simp] theorem State.setSp_ipr : (s.setSp w).ipr = s.ipr := by unfold State.setSp; split <;> rfl
@[simp] theorem State.setSp_req : (s.setSp w).req = s.req := by unfold State.setSp; split <;> rfl
@[simp] theorem State.setSp_irqen : (s.setSp w).irqen = s.irqen := by unfold State.setSp; split <;> rfl
@[simp] theorem State.setSp_env : (s.setSp w).env = s.env := by unfold State.setSp; split <;> rfl
@[simp] theorem State.setSp_draws : (s.setSp w).draws = s.draws := by unfold State.setSp; split <;> rfl

/-- The register file's storage after a write: the written byte at the address, the old bytes
elsewhere. -/
theorem State.readRf_writeRf :
    (s.writeRf a v).readRf b = if b = a then v else s.readRf b := by
  simp only [State.readRf, State.writeRf, Memory.read_write, BitVec.toNat_inj]

@[simp] theorem State.readRf_writeRf_same : (s.writeRf a v).readRf a = v := by
  simp [State.readRf_writeRf]

theorem State.readRf_writeRf_other {a b : Byte} (h : b ≠ a) :
    (s.writeRf a v).readRf b = s.readRf b := by simp [State.readRf_writeRf, h]

@[simp] theorem State.readRf_advance : (s.advance n).readRf a = s.readRf a := rfl

@[simp] theorem State.flags_advance : (s.advance n).flags = s.flags := rfl

@[simp] theorem State.sp_advance : (s.advance n).sp = s.sp := rfl

theorem State.setFlags_eq : s.setFlags v = s.writeRf s.par.flagsAddr v := rfl

@[simp] theorem State.flags_setFlags : (s.setFlags v).flags = v :=
  State.readRf_writeRf_same s s.par.flagsAddr v

theorem State.readRf_setFlags :
    (s.setFlags v).readRf a = if a = s.par.flagsAddr then v else s.readRf a :=
  State.readRf_writeRf s s.par.flagsAddr a v

theorem State.readRf_withLogicFlags :
    (s.withLogicFlags r).readRf a =
      if a = s.par.flagsAddr then logicFlags r s.flags else s.readRf a :=
  State.readRf_setFlags s a _

end Sys2Proof.Machine
end

