-- ==== Sys2Proof/Laws/Stack.lean ====
section
/-! SUPPORT. The laws of the parameters and of the stack: what `paramsWf` gives, and for each stack
operation the one lemma that says everything it can do. -/

namespace Sys2Proof.Machine

open Sys2Proof.Safety

/-- What `paramsWf` says: the six addresses differ and are control-register addresses. -/
structure ParamsFacts (p : Params) : Prop where
  ipr_ne_irq : p.iprAddr ≠ p.irqAddr
  ipr_ne_imr : p.iprAddr ≠ p.imrAddr
  irq_ne_imr : p.irqAddr ≠ p.imrAddr
  flags_ne_ipr : p.flagsAddr ≠ p.iprAddr
  flags_ne_irq : p.flagsAddr ≠ p.irqAddr
  flags_ne_imr : p.flagsAddr ≠ p.imrAddr
  flags_ne_sph : p.flagsAddr ≠ p.sphAddr
  flags_ne_spl : p.flagsAddr ≠ p.splAddr
  sph_ne_spl : p.sphAddr ≠ p.splAddr
  sph_ne_int : p.sphAddr ≠ p.iprAddr ∧ p.sphAddr ≠ p.irqAddr ∧ p.sphAddr ≠ p.imrAddr
  spl_ne_int : p.splAddr ≠ p.iprAddr ∧ p.splAddr ≠ p.irqAddr ∧ p.splAddr ≠ p.imrAddr
  ipr_ge : 0xF0#8 ≤ p.iprAddr
  irq_ge : 0xF0#8 ≤ p.irqAddr
  imr_ge : 0xF0#8 ≤ p.imrAddr
  flags_ge : 0xF0#8 ≤ p.flagsAddr
  sph_ge : 0xF0#8 ≤ p.sphAddr
  spl_ge : 0xF0#8 ≤ p.splAddr

theorem paramsWf_facts {p : Params} (h : paramsWf p = true) : ParamsFacts p := by
  simp only [paramsWf, Bool.and_eq_true, decide_eq_true_eq, List.nodup_cons, List.mem_cons,
    List.not_mem_nil, or_false, not_or, List.all_cons, List.all_nil, List.nodup_nil, and_true] at h
  obtain ⟨⟨⟨h1, h2, h3, h4, h5⟩, ⟨h6, h7, h8, h9⟩, ⟨h10, h11, h12⟩, ⟨h13, h14⟩, h15, -⟩,
    g1, g2, g3, g4, g5, g6⟩ := h
  exact ⟨h1, h2, h6, Ne.symm h3, Ne.symm h7, Ne.symm h10, h13, h14, h15,
    ⟨Ne.symm h4, Ne.symm h8, Ne.symm h11⟩, ⟨Ne.symm h5, Ne.symm h9, Ne.symm h12⟩,
    g1, g2, g3, g4, g5, g6⟩

/-- A byte below F0H is none of the control registers. -/
theorem ne_of_lt_of_ge {a b c : Byte} (ha : a < c) (hb : c ≤ b) : a ≠ b := by
  rintro rfl; exact absurd ha (BitVec.not_lt.mpr hb)

/-- With an internal stack a slot is an implemented general register (R64). -/
theorem stackSlot_internal {s : State} {a : Addr} (hi : s.par.stackInternal = true) :
    stackSlot s a = stkOk s.par (lo8 a) := by simp [stackSlot, stkOk, hi]

theorem stackSlot_lt {s : State} {a : Addr} (hi : s.par.stackInternal = true)
    (h : stackSlot s a = true) : lo8 a < 0xF0#8 := by
  simp [stackSlot, hi] at h; exact h.2

/-- A slot of the internal stack is no control register. -/
theorem stackSlot_ne {s : State} {a : Addr} {c : Byte} (hi : s.par.stackInternal = true)
    (h : stackSlot s a = true) (hc : 0xF0#8 ≤ c) : lo8 a ≠ c :=
  ne_of_lt_of_ge (stackSlot_lt hi h) hc

theorem readStk_next {s : State} {a : Addr} (h : stackSlot s a = true) :
    readStk a s = .next (stackByte s a) := by
  unfold readStk stackByte
  split
  · rename_i hi
    rw [stackSlot_internal hi] at h
    simp [h]
  · rfl

theorem readStk_stop {s : State} {a : Addr} (h : stackSlot s a = false) :
    readStk a s = .refused (.stackOutsideGeneral (lo8 a)) := by
  have hi : s.par.stackInternal = true := by
    by_contra hn; simp [stackSlot, hn] at h
  rw [stackSlot_internal hi] at h
  simp [readStk, hi, h]

@[simp] theorem stackSlot_advance (s : State) (n : Nat) (a : Addr) :
    stackSlot (s.advance n) a = stackSlot s a := rfl

@[simp] theorem stackSlot_setSp (s : State) (w a : Addr) :
    stackSlot (s.setSp w) a = stackSlot s a := by simp [stackSlot]

@[simp] theorem stackSlot_setFlags (s : State) (v : Byte) (a : Addr) :
    stackSlot (s.setFlags v) a = stackSlot s a := rfl

@[simp] theorem stackByte_advance (s : State) (n : Nat) (a : Addr) :
    stackByte (s.advance n) a = stackByte s a := rfl

/-- SP reads back as written, to its width (R23). -/
theorem sp_setSp (s : State) (w : Addr) (hp : paramsWf s.par = true) :
    (s.setSp w).sp = if s.par.stackInternal then zext16 (lo8 w) else w := by
  have hf := paramsWf_facts hp
  unfold State.sp
  simp only [State.setSp_par]
  unfold State.setSp
  split
  · simp
  · rw [State.readRf_writeRf_other _ _ hf.sph_ne_spl]; simp

/-- What a change of SP leaves of the register file: SPL, and SPH with an external stack. -/
theorem readRf_setSp (s : State) (w : Addr) (b : Byte) :
    (s.setSp w).readRf b =
      if b = s.par.splAddr then lo8 w
      else if !s.par.stackInternal && b == s.par.sphAddr then hi8 w
      else s.readRf b := by
  unfold State.setSp
  split <;> rename_i h <;> simp [State.readRf_writeRf, h]

theorem readRf_setSp_other {s : State} {w : Addr} {b : Byte} (h : b ∉ spRegisters s.par) :
    (s.setSp w).readRf b = s.readRf b := by
  rw [readRf_setSp]
  unfold spRegisters at h
  split at h <;> rename_i hi <;> simp_all

/-- FLAGS is not SP. -/
theorem flags_setSp (s : State) (w : Addr) (hp : paramsWf s.par = true) :
    (s.setSp w).flags = s.flags := by
  have hf := paramsWf_facts hp
  unfold State.flags
  rw [State.setSp_par, readRf_setSp]
  simp [hf.flags_ne_spl, hf.flags_ne_sph]

theorem sp_setFlags (s : State) (v : Byte) (hp : paramsWf s.par = true) :
    (s.setFlags v).sp = s.sp := by
  have hf := paramsWf_facts hp
  unfold State.sp
  simp [State.readRf_setFlags, Ne.symm hf.flags_ne_spl, Ne.symm hf.flags_ne_sph]

/-- The stack's bytes are not SP's. -/
theorem stackByte_setSp (s : State) (w a : Addr) (hp : paramsWf s.par = true)
    (h : stackSlot s a = true) : stackByte (s.setSp w) a = stackByte s a := by
  have hf := paramsWf_facts hp
  unfold stackByte
  simp only [State.setSp_par, State.setSp_dm]
  split
  · rename_i hi
    rw [readRf_setSp]
    simp [hi, stackSlot_ne hi h hf.spl_ge]
  · rfl

/-- The stack's bytes are not FLAGS. -/
theorem stackByte_setFlags (s : State) (v : Byte) (a : Addr) (hp : paramsWf s.par = true)
    (h : stackSlot s a = true) : stackByte (s.setFlags v) a = stackByte s a := by
  have hf := paramsWf_facts hp
  unfold stackByte
  by_cases hi : s.par.stackInternal = true
  · rw [if_pos (show (s.setFlags v).par.stackInternal = true from hi), if_pos hi,
      State.readRf_setFlags, if_neg (stackSlot_ne hi h hf.flags_ge)]
  · rw [if_neg (show ¬ (s.setFlags v).par.stackInternal = true from hi), if_neg hi,
      State.setFlags_dm]

/-- A pop from a stack slot (R65). -/
theorem pop8_next {s : State} (h : stackSlot s s.sp = true) :
    pop8 s = .next (stackByte s s.sp, s.setSp (s.sp + 1#16)) := by
  simp [pop8, readStk_next h, andThen]

/-- A pop from outside the stack region is refused (R64). -/
theorem pop8_stop {s : State} (h : stackSlot s s.sp = false) :
    pop8 s = .refused (.stackOutsideGeneral (lo8 s.sp)) := by
  simp [pop8, readStk_stop h, andThen]

/-- After a pop from a slot, SP is one more (R65). -/
theorem sp_pop {s : State} (hp : paramsWf s.par = true) (h : stackSlot s s.sp = true) :
    (s.setSp (s.sp + 1#16)).sp = s.sp + 1#16 := by
  rw [sp_setSp _ _ hp]
  split
  · rename_i hi
    have hlt := stackSlot_lt hi h
    have hs : s.sp = zext16 (s.readRf s.par.splAddr) := by simp [State.sp, hi]
    apply zext16_lo8
    rw [hs] at hlt ⊢
    rw [lo8_zext16, BitVec.lt_def] at hlt
    rw [BitVec.toNat_add, zext16_toNat]
    simp at hlt ⊢
    omega
  · rfl

/-- After a push into a slot, SP is one less (R65). -/
theorem sp_push {s : State} (hp : paramsWf s.par = true) (h : stackSlot s (s.sp - 1#16) = true) :
    (s.setSp (s.sp - 1#16)).sp = s.sp - 1#16 := by
  rw [sp_setSp _ _ hp]
  split
  · rename_i hi
    have hlt := stackSlot_lt hi h
    have hs : s.sp = zext16 (s.readRf s.par.splAddr) := by simp [State.sp, hi]
    have hv := (s.readRf s.par.splAddr).isLt
    apply zext16_lo8
    rw [hs] at hlt ⊢
    rw [BitVec.lt_def, lo8_toNat, BitVec.toNat_sub, zext16_toNat] at hlt
    rw [BitVec.toNat_sub, zext16_toNat]
    simp at hlt ⊢
    omega
  · rfl

/-- The slot a push stores to (R65): SP less one, of which the internal stack uses the low byte. -/
theorem lo8_sp_setSp {s : State} (w : Addr) (hp : paramsWf s.par = true) :
    lo8 (s.setSp w).sp = lo8 w := by
  rw [sp_setSp _ _ hp]; split <;> simp

/-- The state after a push is the SP change and one store. -/
theorem afterPush_eq (s : State) (v : Byte) :
    afterPush s v =
      if s.par.stackInternal then (s.setSp (s.sp - 1#16)).writeRf (lo8 (s.sp - 1#16)) v
      else { s.setSp (s.sp - 1#16) with dm := s.dm.write (s.sp - 1#16).toNat v } := by
  unfold afterPush State.setSp State.writeRf
  split <;> rfl

/-- A push into a stack slot (R65). -/
theorem push8_next {s : State} (v : Byte) (hp : paramsWf s.par = true)
    (h : stackSlot s (s.sp - 1#16) = true) : push8 v s = .next (afterPush s v) := by
  rw [afterPush_eq]
  unfold push8 writeStk
  dsimp only
  rw [State.setSp_par]
  by_cases hi : s.par.stackInternal = true
  · rw [stackSlot_internal hi] at h
    rw [if_pos hi, if_pos hi, lo8_sp_setSp _ hp, if_pos h]
  · rw [if_neg hi, if_neg hi, sp_setSp _ _ hp, if_neg hi, State.setSp_dm]

/-- A push outside the stack region is refused (R64). -/
theorem push8_stop {s : State} (v : Byte) (hp : paramsWf s.par = true)
    (h : stackSlot s (s.sp - 1#16) = false) :
    push8 v s = .refused (.stackOutsideGeneral (lo8 (s.sp - 1#16))) := by
  have hi : s.par.stackInternal = true := by
    by_contra hn; simp [stackSlot, hn] at h
  have hl := lo8_sp_setSp (s.sp - 1#16) hp
  rw [stackSlot_internal hi] at h
  simp [push8, writeStk, hi, hl, h]

@[simp] theorem afterPush_par (s : State) (v : Byte) : (afterPush s v).par = s.par := by
  unfold afterPush; dsimp only; split <;> rfl
@[simp] theorem afterPush_pm (s : State) (v : Byte) : (afterPush s v).pm = s.pm := by
  unfold afterPush; dsimp only; split <;> rfl
@[simp] theorem afterPush_pc (s : State) (v : Byte) : (afterPush s v).pc = s.pc := by
  unfold afterPush; dsimp only; split <;> rfl
@[simp] theorem afterPush_irq (s : State) (v : Byte) : (afterPush s v).irq = s.irq := by
  unfold afterPush; dsimp only; split <;> rfl
@[simp] theorem afterPush_imr (s : State) (v : Byte) : (afterPush s v).imr = s.imr := by
  unfold afterPush; dsimp only; split <;> rfl
@[simp] theorem afterPush_ipr (s : State) (v : Byte) : (afterPush s v).ipr = s.ipr := by
  unfold afterPush; dsimp only; split <;> rfl
@[simp] theorem afterPush_req (s : State) (v : Byte) : (afterPush s v).req = s.req := by
  unfold afterPush; dsimp only; split <;> rfl
@[simp] theorem afterPush_irqen (s : State) (v : Byte) : (afterPush s v).irqen = s.irqen := by
  unfold afterPush; dsimp only; split <;> rfl
@[simp] theorem afterPush_env (s : State) (v : Byte) : (afterPush s v).env = s.env := by
  unfold afterPush; dsimp only; split <;> rfl
@[simp] theorem afterPush_draws (s : State) (v : Byte) : (afterPush s v).draws = s.draws := by
  unfold afterPush; dsimp only; split <;> rfl

@[simp] theorem stackSlot_afterPush (s : State) (v : Byte) (a : Addr) :
    stackSlot (afterPush s v) a = stackSlot s a := by simp [stackSlot]

/-- What a push leaves of the register file. -/
theorem readRf_afterPush_other {s : State} (v : Byte) {b : Byte} (h1 : b ∉ spRegisters s.par)
    (h2 : b ∉ stackRf s [s.sp - 1#16]) : (afterPush s v).readRf b = s.readRf b := by
  rw [afterPush_eq]
  unfold stackRf at h2
  split
  · rename_i hi
    simp [hi] at h2
    rw [State.readRf_writeRf_other _ _ h2, readRf_setSp_other h1]
  · exact readRf_setSp_other h1

/-- What a push leaves of external data memory. -/
theorem dm_afterPush_other {s : State} (v : Byte) {a : Nat}
    (h : a ∉ stackDm s [s.sp - 1#16]) : (afterPush s v).dm.read a = s.dm.read a := by
  unfold stackDm at h
  unfold afterPush
  dsimp only
  split <;> rename_i hi
  · rfl
  · simp only [hi, Bool.false_eq_true, if_false, List.map_cons, List.map_nil,
      List.mem_singleton] at h
    exact Memory.read_write_other _ _ h

theorem sp_writeRf_other {s : State} {a : Byte} (v : Byte) (h1 : a ≠ s.par.splAddr)
    (h2 : a ≠ s.par.sphAddr) : (s.writeRf a v).sp = s.sp := by
  unfold State.sp
  rw [State.writeRf_par, State.readRf_writeRf_other _ _ (Ne.symm h1),
    State.readRf_writeRf_other _ _ (Ne.symm h2)]

/-- After a push into a slot SP is one less. -/
theorem sp_afterPush {s : State} (v : Byte) (hp : paramsWf s.par = true)
    (h : stackSlot s (s.sp - 1#16) = true) : (afterPush s v).sp = s.sp - 1#16 := by
  have hf := paramsWf_facts hp
  rw [afterPush_eq]
  split
  · rename_i hi
    rw [sp_writeRf_other v (by simpa using stackSlot_ne hi h hf.spl_ge)
      (by simpa using stackSlot_ne hi h hf.sph_ge)]
    exact sp_push hp h
  · exact sp_push hp h

/-- FLAGS survives a push (R64: no push lands on a control register). -/
theorem flags_afterPush {s : State} (v : Byte) (hp : paramsWf s.par = true)
    (h : stackSlot s (s.sp - 1#16) = true) : (afterPush s v).flags = s.flags := by
  have hf := paramsWf_facts hp
  have hs := flags_setSp s (s.sp - 1#16) hp
  rw [afterPush_eq]
  split
  · rename_i hi
    unfold State.flags at hs ⊢
    rw [State.writeRf_par, State.readRf_writeRf_other _ _ (Ne.symm _)]
    · exact hs
    · simpa using stackSlot_ne hi h hf.flags_ge
  · exact hs

/-- The pushed byte is the byte at the new SP. -/
theorem stackByte_afterPush_same (s : State) (v : Byte) :
    stackByte (afterPush s v) (s.sp - 1#16) = v := by
  unfold stackByte
  rw [afterPush_par, afterPush_eq]
  split
  · simp
  · simp

/-- A push leaves the other slots. -/
theorem stackByte_afterPush_other {s : State} (v : Byte) {a : Addr} (hp : paramsWf s.par = true)
    (ha : stackSlot s a = true)
    (hne : if s.par.stackInternal then lo8 a ≠ lo8 (s.sp - 1#16) else a ≠ s.sp - 1#16) :
    stackByte (afterPush s v) a = stackByte s a := by
  have := stackByte_setSp s (s.sp - 1#16) a hp ha
  unfold stackByte at this ⊢
  rw [afterPush_par, afterPush_eq]
  split <;> rename_i hi
  · simp only [hi, if_true, State.setSp_par] at hne this
    rw [State.readRf_writeRf_other _ _ hne]
    exact this
  · simp only [hi, Bool.false_eq_true, if_false] at hne ⊢
    exact Memory.read_write_other _ _ (fun h => hne (BitVec.eq_of_toNat_eq h))

/-- Two different slots among the three below an address differ with either stack. -/
theorem slots_differ (s : State) (x : Addr) {i j : Nat} (hi : i < 4) (hj : j < 4) (hij : i ≠ j) :
    if s.par.stackInternal then lo8 (x - BitVec.ofNat 16 i) ≠ lo8 (x - BitVec.ofNat 16 j)
    else x - BitVec.ofNat 16 i ≠ x - BitVec.ofNat 16 j := by
  have hx := x.isLt
  split <;> intro h
  · have h2 := congrArg BitVec.toNat h
    rw [lo8_toNat, lo8_toNat, BitVec.toNat_sub, BitVec.toNat_sub, BitVec.toNat_ofNat,
      BitVec.toNat_ofNat] at h2
    omega
  · have h2 := congrArg BitVec.toNat h
    rw [BitVec.toNat_sub, BitVec.toNat_sub, BitVec.toNat_ofNat, BitVec.toNat_ofNat] at h2
    omega

theorem sub_one_sub_one (x : Addr) : x - 1#16 - 1#16 = x - 2#16 := by bv_omega

theorem sub_two_sub_one (x : Addr) : x - 2#16 - 1#16 = x - 3#16 := by bv_omega

theorem add_one_add_one (x : Addr) : x + 1#16 + 1#16 = x + 2#16 := by bv_omega

theorem add_two_add_one (x : Addr) : x + 2#16 + 1#16 = x + 3#16 := by bv_omega

/-- The state after a program address is pushed: its low byte, then its high byte (R63). -/
def afterPushAddr (s : State) (w : Addr) : State := afterPush (afterPush s (lo8 w)) (hi8 w)

/-- Where the two bytes below SP are stack slots, the second push has its slot too. -/
theorem second_slot {s : State} (v : Byte) (hp : paramsWf s.par = true)
    (h1 : stackSlot s (s.sp - 1#16) = true) (h2 : stackSlot s (s.sp - 2#16) = true) :
    stackSlot (afterPush s v) ((afterPush s v).sp - 1#16) = true := by
  rw [sp_afterPush v hp h1, sub_one_sub_one, stackSlot_afterPush]; exact h2

/-- A program address pushed into two stack slots. -/
theorem pushAddr_next {s : State} (w : Addr) (hp : paramsWf s.par = true)
    (h1 : stackSlot s (s.sp - 1#16) = true) (h2 : stackSlot s (s.sp - 2#16) = true) :
    pushAddr w s = .next (afterPushAddr s w) := by
  unfold pushAddr afterPushAddr
  rw [push8_next _ hp h1]
  exact push8_next _ (by simpa using hp) (second_slot _ hp h1 h2)

theorem sp_afterPushAddr {s : State} (w : Addr) (hp : paramsWf s.par = true)
    (h1 : stackSlot s (s.sp - 1#16) = true) (h2 : stackSlot s (s.sp - 2#16) = true) :
    (afterPushAddr s w).sp = s.sp - 2#16 := by
  unfold afterPushAddr
  rw [sp_afterPush _ (by simpa using hp) (second_slot _ hp h1 h2), sp_afterPush _ hp h1,
    sub_one_sub_one]

theorem flags_afterPushAddr {s : State} (w : Addr) (hp : paramsWf s.par = true)
    (h1 : stackSlot s (s.sp - 1#16) = true) (h2 : stackSlot s (s.sp - 2#16) = true) :
    (afterPushAddr s w).flags = s.flags := by
  unfold afterPushAddr
  rw [flags_afterPush _ (by simpa using hp) (second_slot _ hp h1 h2), flags_afterPush _ hp h1]

/-- The two bytes of a pushed program address: the low byte higher up (R63). -/
theorem stackByte_afterPushAddr {s : State} (w : Addr) (hp : paramsWf s.par = true)
    (h1 : stackSlot s (s.sp - 1#16) = true) :
    stackByte (afterPushAddr s w) (s.sp - 1#16) = lo8 w ∧
    stackByte (afterPushAddr s w) (s.sp - 2#16) = hi8 w := by
  have e : (afterPush s (lo8 w)).sp - 1#16 = s.sp - 2#16 := by
    rw [sp_afterPush _ hp h1, sub_one_sub_one]
  unfold afterPushAddr
  constructor
  · rw [stackByte_afterPush_other _ (by simpa using hp) (by simpa using h1),
      stackByte_afterPush_same]
    rw [e]
    simpa using slots_differ s s.sp (i := 1) (j := 2) (by decide) (by decide) (by decide)
  · rw [← e]; exact stackByte_afterPush_same _ _

/-- What a pushed program address leaves of the register file. -/
theorem readRf_afterPushAddr_other {s : State} (w : Addr) {b : Byte} (hp : paramsWf s.par = true)
    (h1 : stackSlot s (s.sp - 1#16) = true) (hb : b ∉ spRegisters s.par)
    (hs : b ∉ stackRf s [s.sp - 1#16, s.sp - 2#16]) :
    (afterPushAddr s w).readRf b = s.readRf b := by
  have e : (afterPush s (lo8 w)).sp - 1#16 = s.sp - 2#16 := by
    rw [sp_afterPush _ hp h1, sub_one_sub_one]
  unfold afterPushAddr
  rw [readRf_afterPush_other, readRf_afterPush_other _ hb]
  · unfold stackRf at hs ⊢; split at hs <;> simp_all
  · simpa using hb
  · unfold stackRf at hs ⊢; rw [e, afterPush_par]; split at hs <;> simp_all

/-- What a pushed program address leaves of external data memory. -/
theorem dm_afterPushAddr_other {s : State} (w : Addr) {a : Nat} (hp : paramsWf s.par = true)
    (h1 : stackSlot s (s.sp - 1#16) = true) (hs : a ∉ stackDm s [s.sp - 1#16, s.sp - 2#16]) :
    (afterPushAddr s w).dm.read a = s.dm.read a := by
  have e : (afterPush s (lo8 w)).sp - 1#16 = s.sp - 2#16 := by
    rw [sp_afterPush _ hp h1, sub_one_sub_one]
  unfold afterPushAddr
  rw [dm_afterPush_other, dm_afterPush_other]
  · unfold stackDm at hs ⊢; split at hs <;> simp_all
  · unfold stackDm at hs ⊢; rw [e, afterPush_par]; split at hs <;> simp_all

/-- A second program address pop: where the two bytes at SP are stack slots, PC and SP are set and
nothing else changes (R152). -/
theorem popPc_next {s : State} (hp : paramsWf s.par = true) (h1 : stackSlot s s.sp = true)
    (h2 : stackSlot s (s.sp + 1#16) = true) :
    popPc s = .next { (s.setSp (s.sp + 1#16)).setSp (s.sp + 2#16) with
      pc := join16 (stackByte s s.sp) (stackByte s (s.sp + 1#16)) } := by
  have e := sp_pop hp h1
  have g : stackSlot (s.setSp (s.sp + 1#16)) (s.setSp (s.sp + 1#16)).sp = true := by
    rw [e, stackSlot_setSp]; exact h2
  unfold popPc
  rw [pop8_next h1]
  simp only [andThen]
  rw [pop8_next g, e, stackByte_setSp _ _ _ hp h2, add_one_add_one]

/-- After two pops SP is two more. -/
theorem sp_popPc {s : State} (hp : paramsWf s.par = true) (h1 : stackSlot s s.sp = true)
    (h2 : stackSlot s (s.sp + 1#16) = true) :
    ((s.setSp (s.sp + 1#16)).setSp (s.sp + 2#16)).sp = s.sp + 2#16 := by
  have e := sp_pop hp h1
  have g : stackSlot (s.setSp (s.sp + 1#16)) (s.setSp (s.sp + 1#16)).sp = true := by
    rw [e, stackSlot_setSp]; exact h2
  have := sp_pop (by simpa using hp) g
  rwa [e, add_one_add_one] at this

/-- A push goes on only where its slot is a stack slot. -/
theorem push8_cases {v : Byte} {s t : State} (hp : paramsWf s.par = true)
    (h : push8 v s = .next t) : stackSlot s (s.sp - 1#16) = true ∧ t = afterPush s v := by
  cases hs : stackSlot s (s.sp - 1#16) with
  | false => rw [push8_stop v hp hs] at h; cases h
  | true => rw [push8_next v hp hs] at h; cases h; exact ⟨rfl, rfl⟩

/-- A pop goes on only where the byte at SP is a stack slot. -/
theorem pop8_cases {s : State} {r : Byte × State} (h : pop8 s = .next r) :
    stackSlot s s.sp = true ∧ r = (stackByte s s.sp, s.setSp (s.sp + 1#16)) := by
  cases hs : stackSlot s s.sp with
  | false => rw [pop8_stop hs] at h; cases h
  | true => rw [pop8_next hs] at h; cases h; exact ⟨rfl, rfl⟩

end Sys2Proof.Machine
end

