-- ==== Sys2Proof/Laws/Operands.lean ====
section
/-! SUPPORT. The laws of the register operand: one lemma for the read and one for the write that say
everything each can do, and what the write leaves. -/

namespace Sys2Proof.Machine

open Sys2Proof.Safety

@[simp] theorem andThen_next {α β : Type} (a : α) (k : α → Res β) : andThen (.next a) k = k a := rfl

@[simp] theorem andThen_fault {α β : Type} (r : Fault) (k : α → Res β) :
    andThen (.fault r) k = .fault r := rfl

@[simp] theorem andThen_refused {α β : Type} (r : Refusal) (k : α → Res β) :
    andThen (.refused r) k = .refused r := rfl

/-- A sequence goes on only where both parts do. -/
theorem andThen_eq_next {α β : Type} {o : Res α} {k : α → Res β} {b : β}
    (h : andThen o k = .next b) : ∃ a, o = .next a ∧ k a = .next b := by
  cases o with
  | next a => exact ⟨a, rfl, h⟩
  | fault r => cases h
  | refused r => cases h

/-- The addresses that name no location are E0H to EFH (R25). -/
theorem namesLocation_eq (a : Byte) :
    namesLocation a = !(decide (0xE0#8 ≤ a) && decide (a ≤ 0xEF#8)) := by
  revert a; decide

theorem isPlain_eq (p : Params) (a : Byte) :
    isPlain p a = (!isInterruptRegister p a && namesLocation a && rfImpl p a) := by
  simp [isPlain, namesLocation_eq]

/-- Everything a register read can do (R26). -/
theorem readReg_eq (a : Byte) (s : State) :
    readReg a s =
      if canRead s a then .next (regValue s a, afterRead s a)
      else if namesLocation a then .refused (.registerOutsideModel a)
      else .refused (.workingRegister a) := by
  unfold readReg canRead regValue afterRead readIpr
  rw [isPlain_eq]
  by_cases h1 : a = s.par.irqAddr
  · simp [h1, isInterruptRegister]
  · by_cases h2 : a = s.par.imrAddr
    · subst h2; simp [h1, isInterruptRegister]
    · by_cases h3 : a = s.par.iprAddr
      · subst h3; simp [h1, h2, isInterruptRegister]
      · by_cases h4 : namesLocation a <;> by_cases h5 : rfImpl s.par a <;>
          simp [h1, h2, h3, h4, h5, isInterruptRegister]

theorem readReg_next {a : Byte} {s : State} (h : canRead s a = true) :
    readReg a s = .next (regValue s a, afterRead s a) := by simp [readReg_eq, h]

theorem readReg_cases {a : Byte} {s : State} {r : Byte × State} (h : readReg a s = .next r) :
    canRead s a = true ∧ r = (regValue s a, afterRead s a) := by
  rw [readReg_eq] at h
  split at h
  · rename_i hc; cases h; exact ⟨hc, rfl⟩
  · split at h <;> cases h

theorem writeIrq_eq (v : Byte) (s : State) :
    writeIrq v s =
      { s with irq := if s.irqen then (if s.par.edgeSelect then v else v &&& 0x3F#8) else s.irq } := by
  unfold writeIrq withLow6
  cases s with | mk par pm rf dm pc irq imr ipr req irqen env draws =>
  cases irqen <;> simp

/-- Everything a register write can do (R27, R31, R36, R37, R42). -/
theorem writeReg_eq (a v : Byte) (s : State) :
    writeReg a v s =
      if canWrite s a v then .next (afterWrite s a v)
      else if a = s.par.imrAddr then
        (if s.imr.getLsbD 7 then .fault .imrChangedWhileEnabled
         else if s.par.ramProtect then .refused .ramProtectFunction else .fault .imrBit6Reserved)
      else if a = s.par.iprAddr then .fault .iprChangedWhileEnabled
      else if namesLocation a then .refused (.registerOutsideModel a)
      else .refused (.workingRegister a) := by
  unfold writeReg canWrite afterWrite writeImr writeIpr withLow6
  rw [isPlain_eq]
  by_cases h1 : a = s.par.irqAddr
  · simp [h1, writeIrq_eq]
  · by_cases h2 : a = s.par.imrAddr
    · subst h2
      generalize s.imr.getLsbD 7 = m7
      generalize v.getLsbD 6 = v6
      cases m7 <;> cases v6 <;> simp [h1]
    · by_cases h3 : a = s.par.iprAddr
      · subst h3
        generalize s.imr.getLsbD 7 = m7
        cases m7 <;> simp [h1, h2]
      · by_cases h4 : namesLocation a <;> by_cases h5 : rfImpl s.par a <;>
          simp [h1, h2, h3, h4, h5, isInterruptRegister, State.writeRf]

theorem writeReg_next {a v : Byte} {s : State} (h : canWrite s a v = true) :
    writeReg a v s = .next (afterWrite s a v) := by simp [writeReg_eq, h]

theorem writeReg_cases {a v : Byte} {s t : State} (h : writeReg a v s = .next t) :
    canWrite s a v = true ∧ t = afterWrite s a v := by
  rw [writeReg_eq] at h
  split_ifs at h with hc
  cases h
  exact ⟨hc, rfl⟩

/-- What can be written can be read. -/
theorem canRead_of_canWrite {s : State} {a v : Byte} (h : canWrite s a v = true) :
    canRead s a = true := by
  unfold canWrite at h
  unfold canRead isInterruptRegister
  by_cases h1 : a = s.par.irqAddr
  · simp [h1]
  · by_cases h2 : a = s.par.imrAddr
    · simp [h2]
    · by_cases h3 : a = s.par.iprAddr
      · simp [h3]
      · simpa [h1, h2, h3] using h

@[simp] theorem canWrite_afterRead (s : State) (b a v : Byte) :
    canWrite (afterRead s b) a v = canWrite s a v := by
  unfold afterRead; split <;> rfl

@[simp] theorem canRead_advance (s : State) (n : Nat) (a : Byte) :
    canRead (s.advance n) a = canRead s a := rfl

@[simp] theorem canWrite_advance (s : State) (n : Nat) (a v : Byte) :
    canWrite (s.advance n) a v = canWrite s a v := rfl

@[simp] theorem regValue_advance (s : State) (n : Nat) (a : Byte) :
    regValue (s.advance n) a = regValue s a := rfl

/-- The flag update of OR, AND and TM in the terms of the claims. -/
theorem withLogicFlags_eq (s : State) (r : Byte) : s.withLogicFlags r = afterLogic s r := rfl

/-- A read changes nothing but the draw counter. -/
theorem afterRead_frame (s : State) (a : Byte) : ∃ k, afterRead s a = { s with draws := k } := by
  unfold afterRead
  split
  · exact ⟨_, rfl⟩
  · exact ⟨s.draws, rfl⟩

/-- A write changes IRQ, IMR and IPR only at their own addresses, and the register file only
elsewhere. -/
theorem afterWrite_frame (s : State) (a v : Byte) :
    ∃ q m p f, afterWrite s a v = { s with irq := q, imr := m, ipr := p, rf := f } ∧
      (a ≠ s.par.irqAddr → q = s.irq) ∧ (a ≠ s.par.imrAddr → m = s.imr) ∧
      (a ≠ s.par.iprAddr → p = s.ipr) ∧ (∀ b : Byte, b ≠ a → f.read b.toNat = s.rf.read b.toNat) ∧
      (isInterruptRegister s.par a = true → f = s.rf) := by
  unfold afterWrite
  by_cases h1 : a = s.par.irqAddr
  · refine ⟨_, s.imr, s.ipr, s.rf, by rw [if_pos h1], ?_, ?_, ?_, ?_, ?_⟩ <;> simp_all
  · by_cases h2 : a = s.par.imrAddr
    · refine ⟨s.irq, _, s.ipr, s.rf, by rw [if_neg h1, if_pos h2], ?_, ?_, ?_, ?_, ?_⟩ <;> simp_all
    · by_cases h3 : a = s.par.iprAddr
      · refine ⟨s.irq, s.imr, _, s.rf, by rw [if_neg h1, if_neg h2, if_pos h3], ?_, ?_, ?_, ?_, ?_⟩
          <;> simp_all
      · refine ⟨s.irq, s.imr, s.ipr, _, by rw [if_neg h1, if_neg h2, if_neg h3], ?_, ?_, ?_, ?_, ?_⟩
        · simp
        · simp
        · simp
        · intro b hb
          exact Memory.read_write_other _ _ (fun h => hb (BitVec.eq_of_toNat_eq h))
        · simp [isInterruptRegister, h1, h2, h3]

end Sys2Proof.Machine
end

