-- ==== Sys2Proof/Laws/Interrupts.lean ====
section
/-! SUPPORT. The laws of the sample point, of priority selection, of the interrupt cycle and of the
environment's moves. -/

namespace Sys2Proof.Machine

open Sys2Proof.Safety

/-- Everything the sample point can do (R220). -/
theorem sample_eq (s : State) :
    sample s = { s with
      irq := if s.irqen then s.irq ||| s.req.setWidth 8 else s.irq
      req := if s.irqen then 0#6 else s.req &&& Config.reqSurvives s.draws
      draws := if s.irqen || s.req == 0#6 then s.draws else s.draws + 1 } := by
  unfold sample
  cases s with | mk par pm rf dm pc irq imr ipr req irqen env draws =>
  cases irqen
  · by_cases h : req = 0#6 <;> simp [h]
  · simp

@[simp] theorem sample_par (s : State) : (sample s).par = s.par := by rw [sample_eq]
@[simp] theorem sample_pm (s : State) : (sample s).pm = s.pm := by rw [sample_eq]
@[simp] theorem sample_rf (s : State) : (sample s).rf = s.rf := by rw [sample_eq]
@[simp] theorem sample_dm (s : State) : (sample s).dm = s.dm := by rw [sample_eq]
@[simp] theorem sample_pc (s : State) : (sample s).pc = s.pc := by rw [sample_eq]
@[simp] theorem sample_imr (s : State) : (sample s).imr = s.imr := by rw [sample_eq]
@[simp] theorem sample_ipr (s : State) : (sample s).ipr = s.ipr := by rw [sample_eq]
@[simp] theorem sample_irqen (s : State) : (sample s).irqen = s.irqen := by rw [sample_eq]
@[simp] theorem sample_env (s : State) : (sample s).env = s.env := by rw [sample_eq]

/-- A used pattern gives the six levels in some order (R227). -/
theorem priorityOrder_perm (ipr : Byte) (order : List Level) (h : priorityOrder ipr = some order) :
    order.Nodup ∧ ∀ n : Level, n ∈ order := by
  have key : ∀ ipr : Byte, ∀ o ∈ priorityOrder ipr, o.Nodup ∧ ∀ n : Level, n ∈ o := by
    decide +kernel
  exact key ipr order h

/-- The patterns "Not Used" are those whose three group bits agree (R41). -/
theorem priorityOrder_none (ipr : Byte) :
    priorityOrder ipr = none ↔
      (ipr.getLsbD 4 = ipr.getLsbD 3 ∧ ipr.getLsbD 3 = ipr.getLsbD 0) := by
  revert ipr; decide +kernel

/-- What selection gives: a candidate before every other candidate in the order (R226). -/
theorem select_spec {ipr : Byte} {cand : BitVec 6} {n : Level} (h : select ipr cand = some n) :
    ∃ before after, priorityOrder ipr = some (before ++ n :: after) ∧
      cand.getLsbD n.val = true ∧ ∀ m ∈ before, cand.getLsbD m.val = false := by
  unfold select at h
  split at h
  · cases h
  · rename_i order ho
    obtain ⟨hn, before, after, rfl, hb⟩ := List.find?_eq_some_iff_append.mp h
    exact ⟨before, after, ho, hn, fun m hm => by simpa using hb m hm⟩

/-- The level a used order ranks first among the candidates is the one selected. -/
theorem select_of_first {ipr : Byte} {cand : BitVec 6} {n : Level} {before after : List Level}
    (ho : priorityOrder ipr = some (before ++ n :: after)) (hn : cand.getLsbD n.val = true)
    (hb : ∀ m ∈ before, cand.getLsbD m.val = false) : select ipr cand = some n := by
  unfold select
  rw [ho]
  exact List.find?_eq_some_iff_append.mpr ⟨hn, before, after, rfl, fun m hm => by rw [hb m hm]; rfl⟩

/-- Some level is a candidate exactly when the candidates are not all 0. -/
theorem exists_candidate {cand : BitVec 6} : cand ≠ 0#6 ↔ ∃ n : Level, cand.getLsbD n.val = true := by
  revert cand; decide

/-- A used order always selects where something is a candidate (R226). -/
theorem select_isSome {ipr : Byte} {cand : BitVec 6} {order : List Level}
    (ho : priorityOrder ipr = some order) (hc : cand ≠ 0#6) : ∃ n, select ipr cand = some n := by
  obtain ⟨n, hn⟩ := exists_candidate.mp hc
  have hm := (priorityOrder_perm ipr order ho).2 n
  unfold select
  rw [ho]
  cases hf : order.find? fun n => cand.getLsbD n.val with
  | some k => exact ⟨k, hf⟩
  | none => exact absurd hn (by simpa using List.find?_eq_none.mp hf n hm)

/-- Each candidate bit is the request's and the mask's (R224). -/
theorem candidates_bit (s : State) (n : Level) :
    (candidates s).getLsbD n.val = (s.irq.getLsbD n.val && s.imr.getLsbD n.val) := by
  have := n.isLt
  simp [candidates, this]

/-- The bit of level n, in IRQ and IMR. -/
theorem levelBit_bit (n : Level) (k : Nat) : (levelBit n).getLsbD k = decide (k = n.val) := by
  by_cases hk : k < 8
  · revert n; interval_cases k <;> decide
  · have h8 : 8 ≤ k := by omega
    have := n.isLt
    rw [BitVec.getLsbD_of_ge _ _ h8]
    exact (decide_eq_false (by omega)).symm

/-- The bit of level n, in REQ. -/
theorem reqBit_bit (n m : Level) : (reqBit n).getLsbD m.val = (m == n) := by
  revert n m; decide

/-- The state after the interrupt cycle, in the terms of the claims (R230). -/
theorem takeInterrupt_next {n : Level} {s : State} (hp : paramsWf s.par = true)
    (h1 : stackSlot s (s.sp - 1#16) = true) (h2 : stackSlot s (s.sp - 2#16) = true)
    (h3 : stackSlot s (s.sp - 3#16) = true) :
    takeInterrupt n s = .next { afterPush (afterPushAddr s s.pc) s.flags with
      irq := s.irq &&& ~~~(levelBit n), imr := clearBit7 s.imr, pc := vector s n } := by
  set s0 : State := { s with irq := s.irq &&& ~~~(levelBit n) } with hs0
  have hp0 : paramsWf s0.par = true := hp
  have g1 : stackSlot s0 (s0.sp - 1#16) = true := h1
  have g2 : stackSlot s0 (s0.sp - 2#16) = true := h2
  have hp1 : paramsWf (afterPushAddr s0 s.pc).par = true := by simpa [afterPushAddr] using hp0
  have g3 : stackSlot (afterPushAddr s0 s.pc) ((afterPushAddr s0 s.pc).sp - 1#16) = true := by
    rw [sp_afterPushAddr _ hp0 g1 g2, sub_two_sub_one]
    unfold afterPushAddr
    rw [stackSlot_afterPush, stackSlot_afterPush]
    exact h3
  have f : (afterPushAddr s0 s.pc).flags = s.flags := flags_afterPushAddr _ hp0 g1 g2
  unfold takeInterrupt
  simp only [← hs0]
  rw [show s0.pc = s.pc from rfl, pushAddr_next _ hp0 g1 g2, andThen_next, f,
    push8_next _ hp1 g3, andThen_next]
  have swap : ∀ (u : State) (q v : Byte),
      afterPush { u with irq := q } v = { afterPush u v with irq := q } := by
    intro u q v; unfold afterPush; dsimp only; split <;> rfl
  have e : afterPush (afterPushAddr s0 s.pc) s.flags =
      { afterPush (afterPushAddr s s.pc) s.flags with irq := s.irq &&& ~~~(levelBit n) } := by
    unfold afterPushAddr
    rw [show afterPush s0 (lo8 s.pc) = _ from swap s _ _,
      swap (afterPush s (lo8 s.pc)), swap (afterPush (afterPush s (lo8 s.pc)) (hi8 s.pc))]
  rw [e]
  simp [afterPushAddr, vector, State.readPm]

end Sys2Proof.Machine
end

