-- ==== Sys2Proof/Laws/Invariant.lean ====
section
/-! SUPPORT. What each shared operation leaves, said once, and that it keeps the invariant. `Quiet s t`
is the relation of every operation but a register write: only the register file's storage, external
data memory, PC and the draw counter may differ, and canonical memories stay canonical. -/

namespace Sys2Proof.Machine

open Sys2Proof.Safety

/-- The operation touched no more than the register file's storage, external data memory, PC and the
draw counter. -/
structure Quiet (s t : State) : Prop where
  par : t.par = s.par
  pm : t.pm = s.pm
  irq : t.irq = s.irq
  imr : t.imr = s.imr
  ipr : t.ipr = s.ipr
  req : t.req = s.req
  irqen : t.irqen = s.irqen
  env : t.env = s.env
  rf : Memory.wf 256 s.rf = true → Memory.wf 256 t.rf = true
  dm : Memory.wf 65536 s.dm = true → Memory.wf 65536 t.dm = true

theorem Quiet.refl (s : State) : Quiet s s := ⟨rfl, rfl, rfl, rfl, rfl, rfl, rfl, rfl, id, id⟩

theorem Quiet.trans {s t u : State} (h : Quiet s t) (g : Quiet t u) : Quiet s u :=
  ⟨g.par.trans h.par, g.pm.trans h.pm, g.irq.trans h.irq, g.imr.trans h.imr, g.ipr.trans h.ipr,
    g.req.trans h.req, g.irqen.trans h.irqen, g.env.trans h.env, g.rf ∘ h.rf, g.dm ∘ h.dm⟩

theorem quiet_pc (s : State) (w : Addr) : Quiet s { s with pc := w } :=
  ⟨rfl, rfl, rfl, rfl, rfl, rfl, rfl, rfl, id, id⟩

theorem quiet_draws (s : State) (k : Nat) : Quiet s { s with draws := k } :=
  ⟨rfl, rfl, rfl, rfl, rfl, rfl, rfl, rfl, id, id⟩

theorem quiet_advance (s : State) (n : Nat) : Quiet s (s.advance n) := quiet_pc s _

theorem quiet_writeRf (s : State) (a v : Byte) : Quiet s (s.writeRf a v) :=
  ⟨rfl, rfl, rfl, rfl, rfl, rfl, rfl, rfl, Memory.wf_write_byte a v, id⟩

theorem quiet_setFlags (s : State) (v : Byte) : Quiet s (s.setFlags v) := quiet_writeRf s _ v

theorem quiet_withLogicFlags (s : State) (r : Byte) : Quiet s (s.withLogicFlags r) :=
  quiet_writeRf s _ _

theorem quiet_setSp (s : State) (w : Addr) : Quiet s (s.setSp w) := by
  unfold State.setSp
  split
  · exact quiet_writeRf s _ _
  · exact (quiet_writeRf s _ _).trans (quiet_writeRf _ _ _)

theorem quiet_afterRead (s : State) (a : Byte) : Quiet s (afterRead s a) := by
  unfold afterRead
  split
  · exact quiet_draws s _
  · exact Quiet.refl s

theorem quiet_readReg {a : Byte} {s : State} {r : Byte × State} (h : readReg a s = .next r) :
    Quiet s r.2 := by
  rw [(readReg_cases h).2]; exact quiet_afterRead s a

theorem quiet_writeStk {a : Addr} {v : Byte} {s t : State} (h : writeStk a v s = .next t) :
    Quiet s t := by
  unfold writeStk at h
  split_ifs at h
  · cases h; exact quiet_writeRf s _ v
  · cases h
    exact ⟨rfl, rfl, rfl, rfl, rfl, rfl, rfl, rfl, id, Memory.wf_write_addr a v⟩

theorem quiet_push8 {v : Byte} {s t : State} (h : push8 v s = .next t) : Quiet s t :=
  (quiet_setSp s _).trans (quiet_writeStk h)

theorem quiet_pop8 {s : State} {r : Byte × State} (h : pop8 s = .next r) : Quiet s r.2 := by
  rw [(pop8_cases h).2]; exact quiet_setSp s _

theorem quiet_pushAddr {w : Addr} {s t : State} (h : pushAddr w s = .next t) : Quiet s t := by
  obtain ⟨u, hu, ht⟩ := andThen_eq_next h
  exact (quiet_push8 hu).trans (quiet_push8 ht)

theorem quiet_popPc {s t : State} (h : popPc s = .next t) : Quiet s t := by
  obtain ⟨u, hu, h2⟩ := andThen_eq_next h
  obtain ⟨w, hw, ht⟩ := andThen_eq_next h2
  cases ht
  exact ((quiet_pop8 hu).trans (quiet_pop8 hw)).trans (quiet_pc _ _)

theorem quiet_combineTest {f : Byte → Byte} {dst : Byte} {s t : State}
    (h : combineTest f dst s = .next t) : Quiet s t := by
  obtain ⟨u, hu, ht⟩ := andThen_eq_next h
  cases ht
  exact (quiet_readReg hu).trans (quiet_withLogicFlags _ _)

/-- What the interrupt cycle does beside its pushes (R232, R233). -/
theorem takeInterrupt_cases {n : Level} {s t : State} (h : takeInterrupt n s = .next t) :
    ∃ u, Quiet { s with irq := s.irq &&& ~~~(levelBit n) } u ∧
      t = { u with imr := clearBit7 u.imr, pc := vector u n } := by
  obtain ⟨u, hu, h2⟩ := andThen_eq_next h
  obtain ⟨w, hw, ht⟩ := andThen_eq_next h2
  cases ht
  exact ⟨w, (quiet_pushAddr hu).trans (quiet_push8 hw), rfl⟩

/-- What the return from an interrupt does beside its pops (R102). -/
theorem returnFromInterrupt_cases {s t : State} (h : returnFromInterrupt s = .next t) :
    ∃ u, Quiet s u ∧ t = { u with imr := setBit7 u.imr } := by
  obtain ⟨u, hu, h2⟩ := andThen_eq_next h
  obtain ⟨w, hw, ht⟩ := andThen_eq_next h2
  cases ht
  exact ⟨w, ((quiet_pop8 hu).trans (quiet_setFlags _ _)).trans (quiet_popPc hw), rfl⟩

/-- The parts of the state a register write never touches. -/
theorem writeReg_frame {a v : Byte} {s t : State} (h : writeReg a v s = .next t) :
    t.par = s.par ∧ t.pm = s.pm ∧ t.dm = s.dm ∧ t.pc = s.pc ∧ t.req = s.req ∧ t.irqen = s.irqen ∧
    t.env = s.env ∧ t.draws = s.draws ∧ (a ≠ s.par.imrAddr → t.imr = s.imr) ∧
    (s.imr.getLsbD 7 = true → t.imr = s.imr) := by
  obtain ⟨hc, rfl⟩ := writeReg_cases h
  unfold canWrite at hc
  unfold afterWrite
  by_cases h1 : a = s.par.irqAddr
  · simp [h1]
  · by_cases h2 : a = s.par.imrAddr
    · rw [if_neg h1, if_pos h2] at hc
      rw [if_neg h1, if_pos h2]
      refine ⟨rfl, rfl, rfl, rfl, rfl, rfl, rfl, rfl, fun hn => absurd h2 hn, fun h7 => ?_⟩
      simp only [h7, Bool.not_true, Bool.false_and, Bool.false_eq_true] at hc
    · rw [if_neg h1, if_neg h2]
      split_ifs <;> exact ⟨rfl, rfl, rfl, rfl, rfl, rfl, rfl, rfl, fun _ => rfl, fun _ => rfl⟩

theorem inv_of_quiet {s t : State} (h : Inv s) (q : Quiet s t) : Inv t :=
  ⟨by rw [q.par]; exact h.params, by rw [q.pm]; exact h.pm, q.rf h.rf, q.dm h.dm,
    by rw [q.irqen, q.irq]; exact h.held, by rw [q.par, q.irq]; exact h.reserved⟩

/-- The reserved bits of IRQ stay 0 when a byte without them is stored. -/
theorem reserved_of_mask (v : Byte) : (v &&& 0x3F#8).extractLsb' 6 2 = 0#2 := by
  revert v; decide

theorem reserved_of_clear {v : Byte} (w : Byte) (h : v.extractLsb' 6 2 = 0#2) :
    (v &&& w).extractLsb' 6 2 = 0#2 := by
  have : (v &&& w).extractLsb' 6 2 = v.extractLsb' 6 2 &&& w.extractLsb' 6 2 := by
    ext i hi; simp
  rw [this, h]; simp

theorem inv_afterWrite {s : State} (h : Inv s) (a v : Byte) : Inv (afterWrite s a v) := by
  unfold afterWrite
  by_cases h1 : a = s.par.irqAddr
  · rw [if_pos h1]
    refine ⟨h.params, h.pm, h.rf, h.dm, fun he => ?_, fun he => ?_⟩
    · change s.irqen = false at he
      simp only [he, Bool.false_eq_true, if_false]
      exact h.held he
    · change s.par.edgeSelect = false at he
      cases hi : s.irqen with
      | false => simp only [Bool.false_eq_true, if_false]; exact h.reserved he
      | true => simp only [he, Bool.false_eq_true, if_true, if_false]; exact reserved_of_mask v
  · rw [if_neg h1]
    split_ifs
    · exact ⟨h.params, h.pm, h.rf, h.dm, h.held, h.reserved⟩
    · exact ⟨h.params, h.pm, h.rf, h.dm, h.held, h.reserved⟩
    · exact ⟨h.params, h.pm, Memory.wf_write_byte a v h.rf, h.dm, h.held, h.reserved⟩

theorem inv_writeReg {a v : Byte} {s t : State} (hi : Inv s) (h : writeReg a v s = .next t) :
    Inv t := by
  rw [(writeReg_cases h).2]; exact inv_afterWrite hi a v

theorem inv_combineInto {f : Byte → Byte} {dst : Byte} {s t : State} (hi : Inv s)
    (h : combineInto f dst s = .next t) : Inv t := by
  obtain ⟨u, hu, h2⟩ := andThen_eq_next h
  obtain ⟨w, hw, ht⟩ := andThen_eq_next h2
  cases ht
  exact inv_of_quiet (inv_writeReg (inv_of_quiet hi (quiet_readReg hu)) hw)
    (quiet_withLogicFlags _ _)

theorem inv_sample {s : State} (h : Inv s) : Inv (sample s) := by
  rw [sample_eq]
  refine ⟨h.params, h.pm, h.rf, h.dm, fun he => ?_, fun he => ?_⟩
  · change s.irqen = false at he
    simp only [he, Bool.false_eq_true, if_false]; exact h.held he
  · change s.par.edgeSelect = false at he
    have hr := h.reserved he
    cases s.irqen
    · exact hr
    · have key : (s.irq ||| s.req.setWidth 8).extractLsb' 6 2 = s.irq.extractLsb' 6 2 := by
        ext i hi
        have : i < 2 := hi
        simp
      exact key.trans hr

theorem inv_takeInterrupt {n : Level} {s t : State} (hi : Inv s)
    (h : takeInterrupt n s = .next t) : Inv t := by
  obtain ⟨u, q, rfl⟩ := takeInterrupt_cases h
  have h0 : Inv { s with irq := s.irq &&& ~~~(levelBit n) } :=
    ⟨hi.params, hi.pm, hi.rf, hi.dm, fun he => by simp [hi.held he],
      fun he => reserved_of_clear _ (hi.reserved he)⟩
  have hu := inv_of_quiet h0 q
  exact ⟨hu.params, hu.pm, hu.rf, hu.dm, hu.held, hu.reserved⟩

/-- The register file the reset event draws is in canonical form. -/
theorem wf_drawnRf (k : Nat) : Memory.wf 256 (drawnRf k) = true := by
  have key : ∀ (l : List Nat) (m : Memory), (∀ a ∈ l, a < 256) → Memory.wf 256 m = true →
      Memory.wf 256 (l.foldl (fun m a => m.write a (Config.resetRf k (BitVec.ofNat 8 a))) m) = true := by
    intro l
    induction l with
    | nil => intro m _ hm; exact hm
    | cons a l ih =>
      intro m hl hm
      exact ih _ (fun b hb => hl b (List.mem_cons_of_mem _ hb))
        (Memory.wf_write a _ (hl a List.mem_cons_self) hm)
  unfold drawnRf
  exact key (List.range 256) [] (fun a ha => List.mem_range.mp ha) (Memory.wf_nil 256)

/-- Each register byte the reset event draws is its own free value (R25, R300). -/
theorem read_drawnRf (k : Nat) (a : Byte) : (drawnRf k).read a.toNat = Config.resetRf k a := by
  have key : ∀ (l : List Nat) (m : Memory), (l.foldl (fun m a => m.write a
      (Config.resetRf k (BitVec.ofNat 8 a))) m).read a.toNat =
      if a.toNat ∈ l then Config.resetRf k a else m.read a.toNat := by
    intro l
    induction l with
    | nil => intro m; simp
    | cons b l ih =>
      intro m
      rw [List.foldl_cons, ih]
      by_cases hb : b = a.toNat
      · subst hb; simp
      · simp [Memory.read_write_other m _ (fun h => hb h.symm), List.mem_cons,
          show ¬ a.toNat = b from fun h => hb h.symm]
  have ha : a.toNat ∈ List.range 256 := List.mem_range.mpr a.isLt
  unfold drawnRf
  exact (key (List.range 256) []).trans (if_pos ha)

theorem inv_resetEvent {s : State} (h : Inv s) : Inv (resetEvent s) where
  params := h.params
  pm := h.pm
  rf := wf_drawnRf s.draws
  dm := h.dm
  held := fun _ => rfl
  reserved := fun _ => reserved_of_mask 0x00#8

end Sys2Proof.Machine
end

