-- ==== Sys2Proof/Laws/Exec.lean ====
section
/-! SUPPORT. Each instruction in terms of the shared operations, and what an instruction can do, said
once. -/

namespace Sys2Proof.Machine

open Sys2Proof.Safety

variable (s : State) (dst im : Byte)

theorem exec_di : exec .di s = .next { s with pc := s.pc + 1#16, imr := clearBit7 s.imr } := rfl

theorem exec_ei :
    exec .ei s = .next { s with pc := s.pc + 1#16, imr := setBit7 s.imr, irqen := true } := rfl

theorem exec_iret : exec .iret s = returnFromInterrupt (s.advance 1) := rfl

theorem exec_clr : exec (.clr dst) s = writeReg dst 0x00#8 (s.advance 2) := rfl

theorem exec_or :
    exec (.or dst im) s = combineInto (fun t => t ||| im) dst (s.advance 3) := rfl

theorem exec_and :
    exec (.and dst im) s = combineInto (fun t => t &&& im) dst (s.advance 3) := rfl

theorem exec_tm :
    exec (.tm dst im) s = combineTest (fun t => t &&& im) dst (s.advance 3) := rfl

theorem exec_ld : exec (.ld dst im) s = writeReg dst im (s.advance 3) := rfl

theorem exec_push (src : Byte) :
    exec (.push src) s =
      if isStackPointer s.par src then .refused .pushOfStackPointer
      else andThen (readReg src (s.advance 2)) fun t => push8 t.1 t.2 := rfl

theorem exec_pop :
    exec (.pop dst) s =
      if isStackPointer s.par dst then .refused .popIntoStackPointer
      else andThen (pop8 (s.advance 2)) fun t => writeReg dst t.1 t.2 := rfl

theorem exec_jr (cc : Cond) (ra : Byte) :
    exec (.jr cc ra) s =
      .next { s with pc := if condHolds cc s.flags then s.pc + 2#16 + ra.signExtend 16
        else s.pc + 2#16 } := by
  show Host.Outcome.next (if condHolds cc (s.advance 2).flags then _ else _) = _
  rw [State.flags_advance]
  split <;> rfl

theorem exec_call (da : Addr) :
    exec (.call da) s = andThen (pushAddr (s.pc + 3#16) (s.advance 3))
      fun t => .next { t with pc := da } := rfl

theorem exec_ret : exec .ret s = popPc (s.advance 1) := rfl

/-- Where PUSH or POP goes on, its operand is not the stack pointer (R125, R126). -/
theorem isStackPointer_false {p : Params} {a : Byte} (h1 : a ≠ p.splAddr) (h2 : a ≠ p.sphAddr) :
    isStackPointer p a = false := by simp [isStackPointer, h1, h2]

variable {s dst im}

/-- Where a logical instruction goes on: a legal read, a legal write, the flags (R121, R122). -/
theorem combineInto_cases {f : Byte → Byte} {t : State} (h : combineInto f dst s = .next t) :
    canWrite s dst (f (regValue s dst)) = true ∧
    t = afterLogic (afterWrite (afterRead s dst) dst (f (regValue s dst))) (f (regValue s dst)) := by
  obtain ⟨u, hu, h2⟩ := andThen_eq_next h
  obtain ⟨w, hw, ht⟩ := andThen_eq_next h2
  obtain ⟨-, rfl⟩ := readReg_cases hu
  obtain ⟨hc, rfl⟩ := writeReg_cases hw
  cases ht
  exact ⟨by simpa using hc, rfl⟩

theorem combineInto_next {f : Byte → Byte} (h : canWrite s dst (f (regValue s dst)) = true) :
    combineInto f dst s = .next
      (afterLogic (afterWrite (afterRead s dst) dst (f (regValue s dst))) (f (regValue s dst))) := by
  unfold combineInto
  rw [readReg_next (canRead_of_canWrite h), andThen_next, writeReg_next (by simpa using h)]
  rfl

theorem combineTest_next {f : Byte → Byte} (h : canRead s dst = true) :
    combineTest f dst s = .next (afterLogic (afterRead s dst) (f (regValue s dst))) := by
  unfold combineTest
  rw [readReg_next h]
  rfl

theorem combineTest_cases {f : Byte → Byte} {t : State} (h : combineTest f dst s = .next t) :
    canRead s dst = true ∧ t = afterLogic (afterRead s dst) (f (regValue s dst)) := by
  obtain ⟨u, hu, ht⟩ := andThen_eq_next h
  obtain ⟨hc, rfl⟩ := readReg_cases hu
  cases ht
  exact ⟨hc, rfl⟩

/-- A program address is pushed only where both its bytes have a stack slot. -/
theorem pushAddr_cases {w : Addr} {s t : State} (hp : paramsWf s.par = true)
    (h : pushAddr w s = .next t) :
    stackSlot s (s.sp - 1#16) = true ∧ stackSlot s (s.sp - 2#16) = true ∧ t = afterPushAddr s w := by
  obtain ⟨u, hu, ht⟩ := andThen_eq_next h
  obtain ⟨h1, rfl⟩ := push8_cases hp hu
  obtain ⟨h2, rfl⟩ := push8_cases (by simpa using hp) ht
  rw [sp_afterPush _ hp h1, sub_one_sub_one, stackSlot_afterPush] at h2
  exact ⟨h1, h2, rfl⟩

/-- A program address is popped only where both its bytes are stack slots. -/
theorem popPc_cases {s t : State} (hp : paramsWf s.par = true) (h : popPc s = .next t) :
    stackSlot s s.sp = true ∧ stackSlot s (s.sp + 1#16) = true := by
  obtain ⟨u, hu, h2⟩ := andThen_eq_next h
  obtain ⟨v, hv, -⟩ := andThen_eq_next h2
  obtain ⟨a, rfl⟩ := pop8_cases hu
  obtain ⟨b, -⟩ := pop8_cases hv
  rw [sp_pop hp a, stackSlot_setSp] at b
  exact ⟨a, b⟩

/-- The state after the first pop of a return from interrupt: FLAGS has the popped byte (R102). -/
def afterPopFlags (s : State) : State := (s.setSp (s.sp + 1#16)).setFlags (stackByte s s.sp)

/-- What a return from interrupt leaves where the three bytes at SP are stack slots (R102). -/
theorem returnFromInterrupt_next {s : State} (hp : paramsWf s.par = true)
    (h1 : stackSlot s s.sp = true) (h2 : stackSlot s (s.sp + 1#16) = true)
    (h3 : stackSlot s (s.sp + 2#16) = true) :
    returnFromInterrupt s = .next { ((afterPopFlags s).setSp (s.sp + 2#16)).setSp (s.sp + 3#16) with
      pc := join16 (stackByte s (s.sp + 1#16)) (stackByte s (s.sp + 2#16)), imr := setBit7 s.imr } := by
  have hp2 : paramsWf (afterPopFlags s).par = true := by simpa [afterPopFlags] using hp
  have e : (afterPopFlags s).sp = s.sp + 1#16 := by
    unfold afterPopFlags; rw [sp_setFlags _ _ (by simpa using hp)]; exact sp_pop hp h1
  have slot : ∀ a, stackSlot (afterPopFlags s) a = stackSlot s a := fun a => by simp [afterPopFlags]
  have byte : ∀ a, stackSlot s a = true → stackByte (afterPopFlags s) a = stackByte s a := by
    intro a ha
    unfold afterPopFlags
    rw [stackByte_setFlags _ _ _ (by simpa using hp) (by simpa using ha), stackByte_setSp _ _ _ hp ha]
  have g := popPc_next hp2 (by rw [slot, e]; exact h2) (by rw [slot, e, add_one_add_one]; exact h3)
  rw [e, add_one_add_one, byte _ h2, byte _ h3, show s.sp + 1#16 + 2#16 = s.sp + 3#16 by bv_omega] at g
  unfold returnFromInterrupt
  rw [pop8_next h1, andThen_next]
  dsimp only
  change andThen (popPc (afterPopFlags s)) _ = _
  rw [g, andThen_next]
  simp [afterPopFlags]

/-- Everything an instruction can do: touch only the register file's storage, external data memory, PC
and the draw counter; or write the register it has as destination beside that; or be DI, EI or IRET. -/
theorem exec_cases {i : Instr} {s t : State} (h : exec i s = .next t) :
    Quiet s t ∨
    (∃ a v u w, i.writtenOperand = some a ∧ Quiet s u ∧ writeReg a v u = .next w ∧ Quiet w t) ∨
    (i = .di ∧ t = { s with pc := s.pc + 1#16, imr := clearBit7 s.imr }) ∨
    (i = .ei ∧ t = { s with pc := s.pc + 1#16, imr := setBit7 s.imr, irqen := true }) ∨
    (i = .iret ∧ ∃ u, Quiet s u ∧ t = { u with imr := setBit7 u.imr }) := by
  cases i with
  | di => cases h; exact .inr (.inr (.inl ⟨rfl, rfl⟩))
  | ei => cases h; exact .inr (.inr (.inr (.inl ⟨rfl, rfl⟩)))
  | iret =>
    rw [exec_iret] at h
    obtain ⟨u, q, rfl⟩ := returnFromInterrupt_cases h
    exact .inr (.inr (.inr (.inr ⟨rfl, u, (quiet_advance s 1).trans q, rfl⟩)))
  | clr d =>
    rw [exec_clr] at h
    exact .inr (.inl ⟨d, _, _, t, rfl, quiet_advance s 2, h, Quiet.refl t⟩)
  | ld d im =>
    rw [exec_ld] at h
    exact .inr (.inl ⟨d, _, _, t, rfl, quiet_advance s 3, h, Quiet.refl t⟩)
  | or d im =>
    rw [exec_or] at h
    obtain ⟨u, hu, h2⟩ := andThen_eq_next h
    obtain ⟨w, hw, ht⟩ := andThen_eq_next h2
    cases ht
    exact .inr (.inl ⟨d, _, _, w, rfl, (quiet_advance s 3).trans (quiet_readReg hu), hw,
      quiet_withLogicFlags _ _⟩)
  | and d im =>
    rw [exec_and] at h
    obtain ⟨u, hu, h2⟩ := andThen_eq_next h
    obtain ⟨w, hw, ht⟩ := andThen_eq_next h2
    cases ht
    exact .inr (.inl ⟨d, _, _, w, rfl, (quiet_advance s 3).trans (quiet_readReg hu), hw,
      quiet_withLogicFlags _ _⟩)
  | tm d im =>
    rw [exec_tm] at h
    exact .inl ((quiet_advance s 3).trans (quiet_combineTest h))
  | push d =>
    rw [exec_push] at h
    split_ifs at h
    obtain ⟨u, hu, ht⟩ := andThen_eq_next h
    exact .inl (((quiet_advance s 2).trans (quiet_readReg hu)).trans (quiet_push8 ht))
  | pop d =>
    rw [exec_pop] at h
    split_ifs at h
    obtain ⟨u, hu, ht⟩ := andThen_eq_next h
    exact .inr (.inl ⟨d, _, _, t, rfl, (quiet_advance s 2).trans (quiet_pop8 hu), ht,
      Quiet.refl t⟩)
  | jr cc ra =>
    rw [exec_jr] at h
    cases h
    exact .inl (quiet_pc s _)
  | call da =>
    rw [exec_call] at h
    obtain ⟨u, hu, ht⟩ := andThen_eq_next h
    cases ht
    exact .inl (((quiet_advance s 3).trans (quiet_pushAddr hu)).trans (quiet_pc u da))
  | ret =>
    rw [exec_ret] at h
    exact .inl ((quiet_advance s 1).trans (quiet_popPc h))

end Sys2Proof.Machine
end

