-- ==== Sys2Proof/Laws/PerInstr.lean ====
section
/-! SUPPORT. Statements made per instruction: the length of an instruction is the number of its
bytes, and its first byte selects its own row of the opcode map (R80, R83). -/

namespace Sys2Proof.Laws.EncodedForm

/-- The encoding of an instruction has the length R83 gives it, and its first byte alone selects the
instruction's row (R80). -/
def Statement (i : Instr) : Prop :=
  (encode i).length = i.length ∧ ∃ b0 rest, encode i = b0 :: rest ∧ findOpcode b0 = some (instrOpcode i)

theorem di : Statement .di := ⟨rfl, _, _, rfl, rfl⟩

theorem ei : Statement .ei := ⟨rfl, _, _, rfl, rfl⟩

theorem iret : Statement .iret := ⟨rfl, _, _, rfl, rfl⟩

theorem clr (dst : Byte) : Statement (.clr dst) := ⟨rfl, _, _, rfl, rfl⟩

theorem or (dst im : Byte) : Statement (.or dst im) := ⟨rfl, _, _, rfl, rfl⟩

theorem and (dst im : Byte) : Statement (.and dst im) := ⟨rfl, _, _, rfl, rfl⟩

theorem tm (dst im : Byte) : Statement (.tm dst im) := ⟨rfl, _, _, rfl, rfl⟩

theorem ld (dst im : Byte) : Statement (.ld dst im) := ⟨rfl, _, _, rfl, rfl⟩

theorem push (src : Byte) : Statement (.push src) := ⟨rfl, _, _, rfl, rfl⟩

theorem pop (dst : Byte) : Statement (.pop dst) := ⟨rfl, _, _, rfl, rfl⟩

theorem jr (cc : Cond) (ra : Byte) : Statement (.jr cc ra) :=
  ⟨rfl, _, _, rfl, findOpcode_jrByte cc⟩

theorem call (da : Addr) : Statement (.call da) := ⟨rfl, _, _, rfl, rfl⟩

theorem ret : Statement .ret := ⟨rfl, _, _, rfl, rfl⟩

end Sys2Proof.Laws.EncodedForm
end

