-- ==== Sys2Proof/Laws/Step.lean ====
section
/-! SUPPORT. What a step can do, said once. -/

namespace Sys2Proof.Machine

@[simp] theorem dropTurn_par (s : State) : (dropTurn s).par = s.par := rfl
@[simp] theorem dropTurn_pm (s : State) : (dropTurn s).pm = s.pm := rfl
@[simp] theorem dropTurn_rf (s : State) : (dropTurn s).rf = s.rf := rfl
@[simp] theorem dropTurn_dm (s : State) : (dropTurn s).dm = s.dm := rfl
@[simp] theorem dropTurn_pc (s : State) : (dropTurn s).pc = s.pc := rfl
@[simp] theorem dropTurn_irq (s : State) : (dropTurn s).irq = s.irq := rfl
@[simp] theorem dropTurn_imr (s : State) : (dropTurn s).imr = s.imr := rfl
@[simp] theorem dropTurn_ipr (s : State) : (dropTurn s).ipr = s.ipr := rfl
@[simp] theorem dropTurn_req (s : State) : (dropTurn s).req = s.req := rfl
@[simp] theorem dropTurn_irqen (s : State) : (dropTurn s).irqen = s.irqen := rfl
@[simp] theorem dropTurn_draws (s : State) : (dropTurn s).draws = s.draws := rfl

/-- The sample point changes no byte the fetch reads. -/
@[simp] theorem fetch_sample (s : State) : fetch (sample s) = fetch s := by
  simp [fetch, State.readPm]

@[simp] theorem fetch_dropTurn (s : State) : fetch (dropTurn s) = fetch s := rfl

/-- The fetch reads the bytes at PC, PC + 1 and PC + 2, modulo 65 536 (R61, R80). -/
theorem fetch_eq (s : State) : fetch s = Safety.bytesAtPc s := by
  simp [fetch, Safety.bytesAtPc, State.readPm, BitVec.toNat_add]

/-- The moves of the environment touch `REQ` alone (R210, R211). -/
theorem request_frame (n : Level) (s : State) : ∃ x, request n s = { s with req := x } := by
  unfold request
  split
  · exact ⟨_, rfl⟩
  · exact ⟨s.req, rfl⟩

theorem assertSource_frame (src : Source) (s : State) :
    ∃ x, assertSource src s = { s with req := x } := by
  unfold assertSource
  split
  · exact ⟨_, rfl⟩
  · exact ⟨s.req, rfl⟩

theorem pinMoves_frame (p : Pin) (e : Edge) (s : State) :
    ∃ x, pinMoves p e s = { s with req := x } := by
  have two : ∃ x, assertSource .ext3 (assertSource .ext0 s) = { s with req := x } := by
    obtain ⟨x, hx⟩ := assertSource_frame .ext0 s
    rw [hx]
    exact assertSource_frame .ext3 { s with req := x }
  unfold pinMoves
  cases p <;> dsimp only <;> split_ifs <;>
    first
      | exact two
      | exact assertSource_frame _ s
      | exact ⟨s.req, rfl⟩

/-- Everything a step can do: the interrupt cycle of some level, the instruction at PC, a move of the
environment on `REQ`, or the reset event. -/
theorem step_cases {s t : State} (h : step s = .next t) :
    (nextTurn s = .cpu ∧ interruptPending (sample (dropTurn s)) = true ∧
      ∃ n, takeInterrupt n (sample (dropTurn s)) = .next t) ∨
    (nextTurn s = .cpu ∧ interruptPending (sample (dropTurn s)) = false ∧
      ∃ i rest, decode (fetch s) = .ok (i, rest) ∧ exec i (sample (dropTurn s)) = .next t) ∨
    (nextTurn s ≠ .cpu ∧ nextTurn s ≠ .reset ∧ ∃ x, t = { dropTurn s with req := x }) ∨
    (nextTurn s = .reset ∧ t = resetEvent (dropTurn s)) := by
  unfold step at h
  cases hn : nextTurn s with
  | cpu =>
    simp only [hn, takeTurn, cpuStep, atBoundary] at h
    split_ifs at h with hp
    · unfold serveInterrupt at h
      split at h
      · cases h
      · exact .inl ⟨rfl, hp, _, h⟩
    · unfold runInstruction at h
      rw [fetch_sample, fetch_dropTurn] at h
      split at h
      · cases h
      · rename_i i rest hd
        exact .inr (.inl ⟨rfl, by simpa using hp, i, rest, hd, h⟩)
  | request n =>
    rw [hn] at h
    cases h
    exact .inr (.inr (.inl ⟨by simp, by simp, request_frame n (dropTurn s)⟩))
  | source src =>
    rw [hn] at h
    cases h
    exact .inr (.inr (.inl ⟨by simp, by simp, assertSource_frame src (dropTurn s)⟩))
  | pin p e =>
    rw [hn] at h
    cases h
    exact .inr (.inr (.inl ⟨by simp, by simp, pinMoves_frame p e (dropTurn s)⟩))
  | reset =>
    rw [hn] at h
    cases h
    exact .inr (.inr (.inr ⟨rfl, rfl⟩))

end Sys2Proof.Machine
end

