-- ==== Sys2Proof/Tests/Slice0.lean ====
section
/-! SUPPORT. Tests: ill-formed operands refused, words written out from R83 decoded, single steps
whose expected results are the vectors of 95_test_vectors.md, and for every obligation with
hypotheses a witness that meets them. -/

namespace Sys2Proof.Tests

open Sys2Proof Sys2Proof.Machine Sys2Proof.Safety

/-! ### Helpers -/

/-- The outcome is a next state with the property. -/
def goes (o : Res State) (p : State → Bool) : Bool :=
  match o with
  | .next t => p t
  | .fault _ => false
  | .refused _ => false

/-- The outcome is this fault. -/
def faults (o : Res State) (r : Fault) : Bool :=
  match o with
  | .next _ => false
  | .fault q => decide (q = r)
  | .refused _ => false

/-- The outcome is this refusal. -/
def refuses (o : Res State) (r : Refusal) : Bool :=
  match o with
  | .next _ => false
  | .fault _ => false
  | .refused q => decide (q = r)

/-- The outcome is a next state. -/
def runs (o : Res State) : Bool := goes o fun _ => true

/-- Register-file bytes stored one after the other. -/
def withRegs (s : State) (l : List (Byte × Byte)) : State := l.foldl (fun s c => s.writeRf c.1 c.2) s

/-- Program-memory bytes stored one after the other. -/
def withPm (s : State) (l : List (Nat × Byte)) : State :=
  { s with pm := l.foldl (fun m c => m.write c.1 c.2) s.pm }

/-- PC = 0100H, SP = 80H, the rest as at reset. -/
def base : State := withRegs { State.reset with pc := 0x0100#16 } [(0xFF#8, 0x80#8)]

/-- `base` after the first EI, with the master enable clear. -/
def engaged : State := { base with irqen := true }

/-- `base` with the stack in external data memory, SP = 8000H. -/
def external : State :=
  withRegs { base with par := { defaultParams with stackInternal := false } }
    [(0xFE#8, 0x80#8), (0xFF#8, 0x00#8)]

/-- The start of V-CYC1: levels 5 and 2 enabled and pending. -/
def pending : State :=
  withPm (withRegs { engaged with pc := 0x1234#16, irq := 0x24#8, imr := 0xA4#8, ipr := 0x08#8 }
    [(0xFC#8, 0xA5#8)]) [(0x0A, 0x20#8)]

/-! ### WellFormed: an operand E0H to EFH is ill formed (R25, R81) -/

theorem test_wf_clr : (Instr.clr 0xE5#8).wf = false := by decide
theorem test_wf_or : (Instr.or 0xE0#8 0x01#8).wf = false := by decide
theorem test_wf_and : (Instr.and 0xEF#8 0x01#8).wf = false := by decide
theorem test_wf_tm : (Instr.tm 0xE1#8 0x01#8).wf = false := by decide
theorem test_wf_ld : (Instr.ld 0xE8#8 0x01#8).wf = false := by decide
theorem test_wf_push : (Instr.push 0xE4#8).wf = false := by decide
theorem test_wf_pop : (Instr.pop 0xEE#8).wf = false := by decide
theorem test_wf_accepts :
    (Instr.clr 0xDF#8).wf = true ∧ (Instr.clr 0xF0#8).wf = true ∧ (Instr.jr .z 0xE0#8).wf = true ∧
    (Instr.call 0xE0E0#16).wf = true := by decide

/-! ### Decode: the encodings of R83 bit by bit, and their neighbours (R84) -/

theorem test_decode_di : decode [0b10001111#8] = .ok (.di, []) := rfl
theorem test_decode_ei : decode [0b10011111#8] = .ok (.ei, []) := rfl
theorem test_decode_iret : decode [0b10111111#8] = .ok (.iret, []) := rfl
theorem test_decode_ret : decode [0b10101111#8] = .ok (.ret, []) := rfl
theorem test_decode_clr : decode [0b10110000#8, 0xFB#8] = .ok (.clr 0xFB#8, []) := rfl
theorem test_decode_or :
    decode [0b01000110#8, 0xFA#8, 0x20#8] = .ok (.or 0xFA#8 0x20#8, []) := rfl
theorem test_decode_and :
    decode [0b01010110#8, 0xFA#8, 0xFB#8] = .ok (.and 0xFA#8 0xFB#8, []) := rfl
theorem test_decode_tm :
    decode [0b01110110#8, 0xFA#8, 0x04#8] = .ok (.tm 0xFA#8 0x04#8, []) := rfl
theorem test_decode_ld :
    decode [0b11100110#8, 0xF9#8, 0x08#8] = .ok (.ld 0xF9#8 0x08#8, []) := rfl
theorem test_decode_push : decode [0b01110000#8, 0xFB#8] = .ok (.push 0xFB#8, []) := rfl
theorem test_decode_pop : decode [0b01010000#8, 0xFB#8] = .ok (.pop 0xFB#8, []) := rfl
theorem test_decode_jr : decode [0b01101011#8, 0x03#8] = .ok (.jr .z 0x03#8, []) := rfl
theorem test_decode_call :
    decode [0b11010110#8, 0x12#8, 0x34#8] = .ok (.call 0x1234#16, []) := rfl
theorem test_decode_outside :
    decode [0xFF#8] = .error (.opcodeOutsideSubset 0xFF#8) ∧
    decode [0x47#8, 0xFA#8, 0x20#8] = .error (.opcodeOutsideSubset 0x47#8) ∧
    decode [0x46#8, 0xFA#8] = .error (.truncated 0x46#8) ∧ decode [] = .error .noBytes :=
  ⟨rfl, rfl, rfl, rfl⟩

/-! ### Single steps: the vectors of 95_test_vectors.md -/

/-- V-IC1. -/
theorem test_di_clears_bit7 :
    goes (step ({ base with imr := 0xA5#8 }.withFetchWord 8 0x8F))
      (fun t => t.imr == 0x25#8 && t.pc == 0x0101#16) = true := by decide

/-- V-IC3. -/
theorem test_ei_from_reset :
    goes (step (base.withFetchWord 8 0x9F))
      (fun t => t.imr == 0x80#8 && t.irqen && t.irq == 0x00#8) = true := by decide

/-- V-IC4. -/
theorem test_ei_keeps_masks :
    goes (step ({ engaged with imr := 0x3F#8 }.withFetchWord 8 0x9F))
      (fun t => t.imr == 0xBF#8 && t.irqen) = true := by decide

/-- V-IC6. -/
theorem test_iret_pops :
    goes (step ((withRegs { engaged with imr := 0x20#8 }
        [(0xFF#8, 0x7D#8), (0x7D#8, 0x40#8), (0x7F#8, 0x1D#8)]).withFetchWord 8 0xBF))
      (fun t => t.flags == 0x40#8 && t.pc == 0x001D#16 && t.sp == 0x80#16 && t.imr == 0xA0#8) = true := by
  decide

/-- V-IC8. -/
theorem test_iret_outside :
    refuses (step ((withRegs engaged [(0xFF#8, 0xEE#8)]).withFetchWord 8 0xBF))
      (.stackOutsideGeneral 0xEE#8) = true := by decide

/-- V-REG4. -/
theorem test_clr_irq :
    goes (step ({ engaged with irq := 0x3F#8 }.withFetchWord 16 0xFAB0))
      (fun t => t.irq == 0x00#8) = true := by decide

/-- V-REG12. -/
theorem test_clr_working_register :
    refuses (step (base.withFetchWord 16 0xE5B0)) (.workingRegister 0xE5#8) = true := by decide

/-- V-REG1, V-REG3: IRQ ignores a write before the first EI; with `EDGE_SELECT` it stores all eight
bits. -/
theorem test_ld_irq :
    goes (step (base.withFetchWord 24 0x3FFAE6)) (fun t => t.irq == 0x00#8) = true ∧
    goes (step ({ engaged with par := { defaultParams with edgeSelect := true } }.withFetchWord 24
      0xC4FAE6)) (fun t => t.irq == 0xC4#8) = true := by decide

/-- V-REG7 to V-REG9: `IMR[6]` is reserved; IPR takes bits 5:0. -/
theorem test_ld_imr_ipr :
    faults (step (base.withFetchWord 24 0x40FBE6)) .imrBit6Reserved = true ∧
    refuses (step ({ base with par := { defaultParams with ramProtect := true } }.withFetchWord 24
      0x40FBE6)) .ramProtectFunction = true ∧
    goes (step (base.withFetchWord 24 0xC8F9E6)) (fun t => t.ipr == 0x08#8) = true := by decide

/-- V-RL12: FLAGS as the destination; the flags go onto the written byte. -/
theorem test_or_flags :
    goes (step (base.withFetchWord 24 0x80FC46)) (fun t => t.flags == 0xA0#8) = true := by decide

/-- V-RL7: the flags come from the computed value, not from the stored one. -/
theorem test_or_irq_reserved :
    goes (step (engaged.withFetchWord 24 0xC0FA46))
      (fun t => t.irq == 0x00#8 && t.flags == 0x20#8) = true := by decide

/-- V-RL3. -/
theorem test_and_zero :
    goes (step ((withRegs base [(0x20#8, 0xF0#8), (0xFC#8, 0x10#8)]).withFetchWord 24 0x0F2056))
      (fun t => t.readRf 0x20#8 == 0x00#8 && t.flags == 0x40#8) = true := by decide

/-- V-RL8. -/
theorem test_and_irq :
    goes (step ({ engaged with irq := 0x24#8 }.withFetchWord 24 0xFBFA56))
      (fun t => t.irq == 0x20#8 && t.flags == 0x00#8) = true := by decide

/-- V-RL4. -/
theorem test_tm_sign :
    goes (step ((withRegs base [(0x20#8, 0x80#8), (0xFC#8, 0x80#8)]).withFetchWord 24 0x802076))
      (fun t => t.readRf 0x20#8 == 0x80#8 && t.flags == 0xA0#8) = true := by decide

/-- V-REG14: reading IRQ does not clear it. -/
theorem test_tm_irq :
    goes (step ({ engaged with irq := 0x24#8 }.withFetchWord 24 0xFFFA76))
      (fun t => t.irq == 0x24#8) = true := by decide

/-- V-RL16. -/
theorem test_push_imr :
    goes (step ((withRegs { engaged with imr := 0x21#8 } [(0xFF#8, 0x7D#8)]).withFetchWord 16 0xFB70))
      (fun t => t.sp == 0x7C#16 && t.readRf 0x7C#8 == 0x21#8 && t.imr == 0x21#8) = true := by decide

/-- V-RL22: SP wraps to a control register. -/
theorem test_push_wraps :
    refuses (step ((withRegs base [(0xFF#8, 0x00#8)]).withFetchWord 16 0x2070))
      (.stackOutsideGeneral 0xFF#8) = true := by decide

/-- V-RL18. -/
theorem test_pop_imr_enabled :
    faults (exec (.pop 0xFB#8)
      (withRegs { engaged with imr := 0xA0#8 } [(0xFF#8, 0x7C#8), (0x7C#8, 0x21#8)]))
      .imrChangedWhileEnabled = true := by decide

/-- V-RL21. -/
theorem test_pop_flags :
    goes (step ((withRegs base [(0xFF#8, 0x7F#8), (0x7F#8, 0x99#8)]).withFetchWord 16 0xFC50))
      (fun t => t.flags == 0x99#8 && t.sp == 0x80#16) = true := by decide

/-- V-CT4: the following address wraps. -/
theorem test_jr_wraps :
    goes (step ({ base with pc := 0xFFFE#16 }.withFetchWord 16 0x048B))
      (fun t => t.pc == 0x0004#16) = true := by decide

/-- V-CT5: a backward branch below 0. -/
theorem test_jr_back :
    goes (step ({ base with pc := 0x0000#16 }.withFetchWord 16 0x808B))
      (fun t => t.pc == 0xFF82#16) = true := by decide

/-- V-CT8. -/
theorem test_call_pushes :
    goes (step ({ base with pc := 0x0018#16 }.withFetchWord 24 0x3000D6))
      (fun t => t.readRf 0x7F#8 == 0x1B#8 && t.readRf 0x7E#8 == 0x00#8 && t.sp == 0x7E#16 &&
        t.pc == 0x0030#16) = true := by decide

/-- V-CT10: the second push is outside. -/
theorem test_call_outside :
    refuses (step ((withRegs base [(0xFF#8, 0x05#8)]).withFetchWord 24 0x3000D6))
      (.stackOutsideGeneral 0x03#8) = true := by decide

/-- V-CT11. -/
theorem test_ret_in_routine :
    goes (step ((withRegs { engaged with imr := 0x20#8 }
        [(0xFF#8, 0x7D#8), (0x7D#8, 0xA5#8), (0x7E#8, 0x12#8), (0x7F#8, 0x34#8)]).withFetchWord 8 0xAF))
      (fun t => t.pc == 0xA512#16 && t.sp == 0x7F#16 && t.imr == 0x20#8) = true := by decide

/-- V-CYC1. -/
theorem test_cycle_internal :
    goes (step pending) (fun t => t.irq == 0x04#8 && t.readRf 0x7F#8 == 0x34#8 &&
      t.readRf 0x7E#8 == 0x12#8 && t.readRf 0x7D#8 == 0xA5#8 && t.sp == 0x7D#16 &&
      t.imr == 0x24#8 && t.pc == 0x2000#16 && t.flags == 0xA5#8) = true := by decide

/-- V-CYC5. -/
theorem test_cycle_external :
    goes (takeInterrupt 5 (withRegs { external with pc := 0x1234#16 } [(0xFC#8, 0xA5#8)]))
      (fun t => t.dm.read 0x7FFF == 0x34#8 && t.dm.read 0x7FFE == 0x12#8 &&
        t.dm.read 0x7FFD == 0xA5#8 && t.sp == 0x7FFD#16) = true := by decide

/-- V-SM7: the request moves into IRQ and level 5 is selected. -/
theorem test_sample_and_select :
    goes (step { pending with req := 0b100001#6, irq := 0x02#8, imr := 0xA1#8 })
      (fun t => t.irq == 0x03#8 && t.req == 0#6) = true := by decide

/-- V-SM2: with the master enable clear the instruction at PC runs. -/
theorem test_sample_masked :
    goes (step ({ engaged with req := 0b000100#6, imr := 0x04#8 }.withFetchWord 8 0x8F))
      (fun t => t.irq == 0x04#8 && t.req == 0#6 && t.pc == 0x0101#16) = true := by decide

/-- V-SEL6, V-SEL11, V-SEL15. -/
theorem test_select :
    select 0x11#8 0b001001#6 = some 0 ∧ select 0x03#8 0b010010#6 = some 4 ∧
    select 0x00#8 0b000100#6 = none := by decide

/-- Table V-PRI, rows 01H, 1AH and 3EH. -/
theorem test_priority_table :
    priorityOrder 0x01#8 = some [1, 4, 5, 3, 2, 0] ∧ priorityOrder 0x1A#8 = some [2, 0, 5, 3, 4, 1] ∧
    priorityOrder 0x3E#8 = some [0, 2, 3, 5, 4, 1] := by decide

/-! ### Witnesses: for each obligation with hypotheses, an input that meets them -/

theorem test_witness_EncodeOfDecode : decode [0xD6#8, 0xFF#8, 0xFE#8] = .ok (.call 0xFFFE#16, []) := rfl

theorem test_witness_OpcodeOutsideSubsetRefused :
    (∀ i : Instr, (encode i).head? ≠ some 0xFF#8) ∧ nextTurn (base.withFetchWord 8 0xFF) = .cpu ∧
    interruptPending (sample (dropTurn (base.withFetchWord 8 0xFF))) = false ∧
    (base.withFetchWord 8 0xFF).readPm (base.withFetchWord 8 0xFF).pc = 0xFF#8 := by
  refine ⟨fun i => ?_, by decide, by decide, by decide⟩
  cases i with
  | jr cc ra => cases cc <;> simp [encode, jrByte, condCode]
  | _ => simp [encode]

theorem test_witness_ResetEventReplacesState :
    ({ pending with env := [.reset, .cpu] } : State).env = .reset :: [.cpu] := rfl

theorem test_base_inv : Inv base := ⟨by decide, by decide, by decide, by decide, by decide, by decide⟩

theorem test_pending_inv : Inv pending :=
  ⟨by decide, by decide, by decide, by decide, by decide, by decide⟩

theorem test_witness_StepKeepsInv : Inv pending ∧ ∃ t, step pending = .next t :=
  ⟨test_pending_inv, _, rfl⟩

theorem test_witness_StepKeepsProgramMemory :
    ∃ t, step { pending with env := [.request 3] } = .next t := ⟨_, rfl⟩

/-- EI sets `IRQEN`, and the reset event clears it. -/
theorem test_witness_IrqenSetOnlyByEiClearedOnlyByReset :
    (base.withFetchWord 8 0x9F).irqen = false ∧
    goes (step (base.withFetchWord 8 0x9F)) (fun t => t.irqen) = true ∧ pending.irqen = true ∧
    goes (step { pending with env := [.reset] }) (fun t => !t.irqen) = true := by decide

/-- EI, IRET and LD IMR set the master enable; the reset event, the cycle and DI clear it. -/
theorem test_witness_MasterEnableWriters :
    goes (step (base.withFetchWord 8 0x9F)) (fun t => t.imr.getLsbD 7) = true ∧
    goes (step ((withRegs base [(0xFF#8, 0x7D#8)]).withFetchWord 8 0xBF))
      (fun t => t.imr.getLsbD 7) = true ∧
    goes (step (base.withFetchWord 24 0x85FBE6)) (fun t => t.imr.getLsbD 7) = true ∧
    goes (step pending) (fun t => !t.imr.getLsbD 7) = true ∧
    goes (step (pending.withFetchWord 8 0x8F)) (fun t => !t.imr.getLsbD 7) = true ∧
    (∃ t, step { pending with env := [.reset] } = .next t ∧ t.imr.getLsbD 7 = false) := by
  refine ⟨by decide, by decide, by decide, by decide, by decide, _, rfl, ?_⟩
  simp [resetEvent]

theorem test_witness_MaskBitsChangeOnlyByWrite :
    nextTurn (base.withFetchWord 24 0x85FBE6) = .cpu ∧
    goes (step (base.withFetchWord 24 0x85FBE6)) (fun t => t.imr.extractLsb' 0 7 == 0x05#7) = true := by
  decide

theorem test_witness_IprDoesNotInfluenceInstructions :
    runs (exec (.tm 0xF9#8 0x01#8) base) = true ∧
    faults (exec (.clr 0xF9#8) pending) .iprChangedWhileEnabled = true ∧
    refuses (exec (.clr 0xE5#8) base) (.workingRegister 0xE5#8) = true := by decide

theorem test_witness_StepRunsDecodedInstruction :
    nextTurn (base.withFetchWord 8 0x9F) = .cpu ∧
    interruptPending (sample (dropTurn (base.withFetchWord 8 0x9F))) = false ∧
    decode (bytesAtPc (base.withFetchWord 8 0x9F)) = .ok (.ei, [0x00#8, 0x00#8]) :=
  ⟨by decide, by decide, rfl⟩

/-- The operand bytes follow the opcode across the top of program memory (R61): CALL 0030H at FFFFH,
0000H, 0001H. -/
theorem test_fetch_wraps :
    let s := withPm { base with pc := 0xFFFF#16 } [(0xFFFF, 0xD6#8), (0x0000, 0x00#8), (0x0001, 0x30#8)]
    decode (bytesAtPc s) = .ok (.call 0x0030#16, []) ∧ goes (step s) (fun t => t.pc == 0x0030#16) = true :=
  ⟨by rfl, by decide⟩

/-- Both sides of the condition: `pending`, and `pending` with the master enable clear. -/
theorem test_witness_InterruptConditionDecides :
    nextTurn pending = .cpu ∧ interruptPending (sample (dropTurn pending)) = true ∧
    select pending.ipr 0b100100#6 = some 5 ∧
    interruptPending (sample (dropTurn { pending with imr := 0x24#8 })) = false := by decide

theorem test_witness_SelectTakesHighestCandidate :
    priorityOrder 0x08#8 = some [5, 3, 2, 0, 1, 4] ∧ 0b010011#6 ≠ 0#6 := by decide

theorem test_witness_PriorityOrderIsTables : priorityOrder 0x36#8 = some [0, 2, 4, 1, 3, 5] := by decide

theorem test_witness_NotUsedPatternStopsTheCycle :
    nextTurn { pending with ipr := 0x3F#8 } = .cpu ∧
    interruptPending (sample (dropTurn { pending with ipr := 0x3F#8 })) = true ∧
    (0x3F#8).getLsbD 4 = (0x3F#8).getLsbD 3 ∧ (0x3F#8).getLsbD 3 = (0x3F#8).getLsbD 0 := by decide

/-- The lowest internal stack that has room: SP = 07H, so the slots are 06H, 05H and 04H; and an
external one. -/
theorem test_witness_InterruptCycleSavesAndVectors :
    paramsWf base.par = true ∧
    stackSlot (withRegs base [(0xFF#8, 0x07#8)]) ((withRegs base [(0xFF#8, 0x07#8)]).sp - 1#16) = true ∧
    stackSlot (withRegs base [(0xFF#8, 0x07#8)]) ((withRegs base [(0xFF#8, 0x07#8)]).sp - 2#16) = true ∧
    stackSlot (withRegs base [(0xFF#8, 0x07#8)]) ((withRegs base [(0xFF#8, 0x07#8)]).sp - 3#16) = true ∧
    paramsWf external.par = true ∧ stackSlot external (external.sp - 1#16) = true := by decide

/-- SP = 04H, 05H and 06H leave room for no push, one and two. -/
theorem test_witness_InterruptCycleNeedsStack :
    stackSlot (withRegs base [(0xFF#8, 0x04#8)]) ((withRegs base [(0xFF#8, 0x04#8)]).sp - 1#16) = false ∧
    stackSlot (withRegs base [(0xFF#8, 0x05#8)]) ((withRegs base [(0xFF#8, 0x05#8)]).sp - 1#16) = true ∧
    stackSlot (withRegs base [(0xFF#8, 0x05#8)]) ((withRegs base [(0xFF#8, 0x05#8)]).sp - 2#16) = false ∧
    stackSlot (withRegs base [(0xFF#8, 0x06#8)]) ((withRegs base [(0xFF#8, 0x06#8)]).sp - 2#16) = true ∧
    stackSlot (withRegs base [(0xFF#8, 0x06#8)]) ((withRegs base [(0xFF#8, 0x06#8)]).sp - 3#16) = false := by
  decide

theorem test_witness_IretResumesInterruptedProgram :
    paramsWf pending.par = true ∧ stackSlot pending (pending.sp - 1#16) = true ∧
    stackSlot pending (pending.sp - 2#16) = true ∧ stackSlot pending (pending.sp - 3#16) = true ∧
    pending.imr.getLsbD 7 = true := by decide

/-- A software interrupt on level 3, below level 5 in the order and with level 5 enabled but not
pending. -/
theorem test_witness_SoftwareInterruptIsTaken :
    let s : State := { engaged with imr := 0xA8#8, ipr := 0x08#8, env := [.cpu, .request 5] }
    paramsWf s.par = true ∧ s.irqen = true ∧ nextTurn s = .cpu ∧ s.imr.getLsbD 7 = true ∧
    s.imr.getLsbD (3 : Level).val = true ∧
    priorityOrder s.ipr = some ([5] ++ 3 :: [2, 0, 1, 4]) ∧
    ∀ m ∈ ([5] : List Level),
      ((s.irq.getLsbD m.val || s.req.getLsbD m.val) && s.imr.getLsbD m.val) = false := by decide

theorem test_witness_RequestSetsFirstFlipFlop :
    ({ base with env := [.request 5] } : State).env = .request 5 :: [] ∧
    Source.timer1 ∈ base.par.sources ∧ tableLevel .timer1 = 5 := by decide

theorem test_witness_SourcesRequestTheirLevel :
    ({ base with env := [.source .tin] } : State).env = .source .tin :: [] ∧
    goes (step { base with env := [.source .timer0] }) (fun t => t.req == 0b010000#6) = true := by decide

/-- Every pin, at the rows of Table 7-4 that tell the edges apart, and P32 as the source of IRQ3. -/
theorem test_witness_PinTransitionsRequestTheirLevels :
    let edges := { defaultParams with edgeSelect := true }
    let moved := fun (p : Params) (irq : Byte) (pin : Pin) (e : Edge) (req : BitVec 6) =>
      goes (step { base with par := p, irq := irq, env := [.pin pin e] }) (fun t => t.req == req)
    ({ base with env := [.pin .p32 .falling] } : State).env = .pin .p32 .falling :: [] ∧
    moved defaultParams 0x00#8 .p33 .falling 0b000010#6 = true ∧
    moved defaultParams 0x00#8 .p30 .falling 0b001000#6 = true ∧
    moved defaultParams 0x00#8 .p30 .rising 0b000000#6 = true ∧
    moved edges 0x40#8 .p31 .falling 0b000100#6 = true ∧
    moved edges 0x40#8 .p32 .rising 0b000001#6 = true ∧
    moved edges 0x80#8 .p31 .rising 0b000100#6 = true ∧
    moved edges 0x80#8 .p32 .rising 0b000000#6 = true ∧
    moved edges 0xC0#8 .p31 .falling 0b000100#6 = true ∧
    moved { edges with irq3OnP32 := true } 0x40#8 .p32 .rising 0b001001#6 = true := by decide

theorem test_witness_IretPopsFlagsAndPc :
    let s := withRegs base [(0xFF#8, 0x7D#8)]
    paramsWf s.par = true ∧ stackSlot s s.sp = true ∧ stackSlot s (s.sp + 1#16) = true ∧
    stackSlot s (s.sp + 2#16) = true ∧ runs (exec .iret s) = true := by decide

/-- Each kind of destination: IRQ, IMR, IPR and a plain location, the first and the last of them. -/
theorem test_witness_ClrWritesZero :
    canWrite base 0xFA#8 0x00#8 = true ∧ canWrite base 0xFB#8 0x00#8 = true ∧
    canWrite base 0xF9#8 0x00#8 = true ∧ canWrite base 0x04#8 0x00#8 = true ∧
    canWrite base 0x7F#8 0x00#8 = true ∧ canWrite base 0xFF#8 0x00#8 = true ∧
    canWrite pending 0xFB#8 0x00#8 = false ∧ canWrite base 0xE0#8 0x00#8 = false := by decide

theorem test_witness_LdWritesImmediate :
    canWrite base 0xFB#8 0xBF#8 = true ∧ canWrite base 0xF9#8 0xFF#8 = true ∧
    canWrite base 0x20#8 0xFF#8 = true ∧ canWrite base 0xFB#8 0x40#8 = false := by decide

theorem test_witness_OrSetsBits :
    canWrite base 0xFB#8 (regValue base 0xFB#8 ||| 0x21#8) = true ∧
    canWrite base 0xFC#8 (regValue base 0xFC#8 ||| 0x80#8) = true ∧
    canWrite base 0xFB#8 (regValue base 0xFB#8 ||| 0x40#8) = false := by decide

theorem test_witness_AndClearsBits :
    canWrite { base with imr := 0x3F#8 } 0xFB#8 (regValue { base with imr := 0x3F#8 } 0xFB#8 &&& 0x21#8)
      = true ∧ canWrite base 0xFC#8 (regValue base 0xFC#8 &&& 0x80#8) = true ∧
    canWrite pending 0xFB#8 (regValue pending 0xFB#8 &&& 0x21#8) = false := by decide

/-- IMR can be read with the master enable set. -/
theorem test_witness_TmSetsFlagsOnly :
    canRead pending 0xFB#8 = true ∧ canRead pending 0xF9#8 = true ∧ canRead pending 0x04#8 = true ∧
    canRead pending 0xEF#8 = false := by decide

theorem test_witness_PushStoresRegister :
    paramsWf base.par = true ∧ 0xFB#8 ≠ base.par.splAddr ∧ 0xFB#8 ≠ base.par.sphAddr ∧
    canRead base 0xFB#8 = true ∧ stackSlot base (base.sp - 1#16) = true ∧
    runs (exec (.push 0xFB#8) base) = true := by decide

theorem test_witness_PopLoadsRegister :
    let s := withRegs base [(0xFF#8, 0x7C#8), (0x7C#8, 0x21#8)]
    paramsWf s.par = true ∧ 0xFB#8 ≠ s.par.splAddr ∧ 0xFB#8 ≠ s.par.sphAddr ∧
    stackSlot s s.sp = true ∧ canWrite s 0xFB#8 (stackByte s s.sp) = true ∧
    canWrite s 0x20#8 (stackByte s s.sp) = true ∧ isPlain s.par 0x20#8 = true ∧
    0x20#8 ≠ s.par.flagsAddr ∧ runs (exec (.pop 0x20#8) s) = true := by decide

/-- The lowest internal stack with room for an address: SP = 06H. -/
theorem test_witness_CallPushesReturnAddress :
    let s := withRegs base [(0xFF#8, 0x06#8)]
    paramsWf s.par = true ∧ stackSlot s (s.sp - 1#16) = true ∧ stackSlot s (s.sp - 2#16) = true ∧
    runs (exec (.call 0x0030#16) s) = true := by decide

theorem test_witness_RetPopsPc :
    let s := withRegs base [(0xFF#8, 0x7E#8)]
    paramsWf s.par = true ∧ stackSlot s s.sp = true ∧ stackSlot s (s.sp + 1#16) = true ∧
    runs (exec .ret s) = true := by decide

theorem test_witness_RetReturnsFromCall :
    paramsWf external.par = true ∧ stackSlot external (external.sp - 1#16) = true ∧
    stackSlot external (external.sp - 2#16) = true := by decide

theorem test_witness_PopRestoresPushedMask :
    paramsWf engaged.par = true ∧ stackSlot engaged (engaged.sp - 1#16) = true ∧
    engaged.imr.getLsbD 7 = false ∧ engaged.imr.getLsbD 6 = false ∧ (0x3F#8).getLsbD 7 = false ∧
    (0x3F#8).getLsbD 6 = false := by decide

theorem test_witness_MaskAndPriorityProtected :
    let s := withRegs pending [(0xFF#8, 0x7C#8)]
    paramsWf s.par = true ∧ s.imr.getLsbD 7 = true ∧ stackSlot s s.sp = true := by decide

/-- LD and OR of a 1, AND where the reset event drew `IMR[6]` = 1, POP of a byte with bit 6; with and
without RAM Protect. -/
theorem test_witness_ReservedMaskBitStops :
    let s := withRegs { base with imr := 0x40#8 } [(0xFF#8, 0x7C#8), (0x7C#8, 0x40#8)]
    paramsWf s.par = true ∧ s.imr.getLsbD 7 = false ∧ (0x40#8).getLsbD 6 = true ∧
    (s.imr ||| 0x00#8).getLsbD 6 = true ∧ (s.imr &&& 0x40#8).getLsbD 6 = true ∧
    stackSlot s s.sp = true ∧ (stackByte s s.sp).getLsbD 6 = true ∧
    paramsWf { defaultParams with ramProtect := true } = true := by decide

/-- The ends of E0H to EFH, and addresses beside the implemented ranges. -/
theorem test_witness_RegisterOperandsRefused :
    paramsWf base.par = true ∧ canRead base 0xE0#8 = false ∧ canRead base 0xEF#8 = false ∧
    canRead base 0xDF#8 = false ∧ canRead base 0xF0#8 = false ∧ canRead base 0x03#8 = false ∧
    canRead base 0x80#8 = false ∧
    stackSlot (withRegs base [(0xFF#8, 0x7F#8)]) 0x7F#16 = true := by decide

/-- Every clause: SP = 04H and 05H for the stores, 03H, 80H (below and above the general registers),
7FH and 7EH for the loads, and an external stack. -/
theorem test_witness_StackOutsideGeneralRefused :
    let at' := fun v : Byte => withRegs base [(0xFF#8, v)]
    paramsWf base.par = true ∧ stackSlot (at' 0x04#8) ((at' 0x04#8).sp - 1#16) = false ∧
    canRead (at' 0x04#8) 0x20#8 = true ∧
    stackSlot (at' 0x05#8) ((at' 0x05#8).sp - 1#16) = true ∧
    stackSlot (at' 0x05#8) ((at' 0x05#8).sp - 2#16) = false ∧
    stackSlot (at' 0x03#8) (at' 0x03#8).sp = false ∧ stackSlot (at' 0x80#8) (at' 0x80#8).sp = false ∧
    stackSlot (at' 0x7F#8) (at' 0x7F#8).sp = true ∧
    stackSlot (at' 0x7F#8) ((at' 0x7F#8).sp + 1#16) = false ∧
    stackSlot (at' 0x7E#8) (at' 0x7E#8).sp = true ∧
    stackSlot (at' 0x7E#8) ((at' 0x7E#8).sp + 1#16) = true ∧
    stackSlot (at' 0x7E#8) ((at' 0x7E#8).sp + 2#16) = false ∧
    external.par.stackInternal = false := by decide

theorem test_witness_ClearAndLoadFrame :
    runs (exec (.clr 0x20#8) base) = true ∧ runs (exec (.ld 0xFB#8 0x85#8) base) = true ∧
    isInterruptRegister base.par 0xFB#8 = true := by decide

theorem test_witness_LogicFrame :
    runs (exec (.or 0x20#8 0x80#8) base) = true ∧ runs (exec (.and 0xFA#8 0xFB#8) engaged) = true ∧
    isInterruptRegister base.par 0xFA#8 = true ∧ 0x20#8 ≠ base.par.flagsAddr := by decide

theorem test_witness_TestFrame : runs (exec (.tm 0xFB#8 0x80#8) pending) = true := by decide

theorem test_witness_PushFrame :
    paramsWf base.par = true ∧ runs (exec (.push 0xFB#8) base) = true ∧
    paramsWf external.par = true ∧ runs (exec (.push 0xFB#8) external) = true := by decide

theorem test_witness_PopFrame :
    let s := withRegs base [(0xFF#8, 0x7F#8), (0x7F#8, 0x21#8)]
    paramsWf s.par = true ∧ runs (exec (.pop 0x20#8) s) = true ∧
    runs (exec (.pop 0xFB#8) s) = true ∧ isInterruptRegister s.par 0xFB#8 = true := by decide

theorem test_witness_CallAndReturnFrame :
    let s := withRegs base [(0xFF#8, 0x7D#8)]
    paramsWf s.par = true ∧ runs (exec (.call 0x0030#16) s) = true ∧ runs (exec .ret s) = true ∧
    runs (exec .iret s) = true := by decide

theorem test_witness_ControlFrame :
    runs (exec .di base) = true ∧ runs (exec .ei base) = true ∧
    runs (exec (.jr .always 0xFE#8) base) = true := by decide

end Sys2Proof.Tests
end

/-! ### What an instruction and a step do to the invariant, IRQEN and IMR -/

namespace Sys2Proof.Machine

open Sys2Proof.Safety

/-- No instruction breaks the invariant. -/
theorem inv_exec {i : Instr} {s t : State} (hi : Inv s) (h : exec i s = .next t) : Inv t := by
  obtain q | ⟨a, v, u, w, -, q, hw, q'⟩ | ⟨-, rfl⟩ | ⟨-, rfl⟩ | ⟨-, u, q, rfl⟩ := exec_cases h
  · exact inv_of_quiet hi q
  · exact inv_of_quiet (inv_writeReg (inv_of_quiet hi q) hw) q'
  · exact ⟨hi.params, hi.pm, hi.rf, hi.dm, hi.held, hi.reserved⟩
  · exact ⟨hi.params, hi.pm, hi.rf, hi.dm, fun hclear => (nomatch hclear), hi.reserved⟩
  · have hu := inv_of_quiet hi q
    exact ⟨hu.params, hu.pm, hu.rf, hu.dm, hu.held, hu.reserved⟩

/-- `IRQEN` after an instruction: set by EI, else as before (R46, R101). -/
theorem exec_irqen {i : Instr} {s t : State} (h : exec i s = .next t) :
    t.irqen = s.irqen ∨ (i = .ei ∧ t.irqen = true) := by
  obtain q | ⟨a, v, u, w, -, q, hw, q'⟩ | ⟨-, rfl⟩ | ⟨rfl, rfl⟩ | ⟨-, u, q, rfl⟩ := exec_cases h
  · exact .inl q.irqen
  · obtain ⟨-, -, -, -, -, hirqen, -⟩ := writeReg_frame hw
    exact .inl (q'.irqen.trans (hirqen.trans q.irqen))
  · exact .inl rfl
  · exact .inr ⟨rfl, rfl⟩
  · exact .inl q.irqen

/-- IMR after an instruction: as before, or written as the destination with the master enable clear,
or bit 7 cleared by DI, or bit 7 set by EI or IRET (R35, R37). -/
theorem exec_imr {i : Instr} {s t : State} (h : exec i s = .next t) :
    t.imr = s.imr ∨
    (s.imr.getLsbD 7 = false ∧ i.writtenOperand = some s.par.imrAddr) ∨
    (i = .di ∧ t.imr = clearBit7 s.imr) ∨
    ((i = .ei ∨ i = .iret) ∧ t.imr = setBit7 s.imr) := by
  obtain q | ⟨a, v, u, w, ha, q, hw, q'⟩ | ⟨rfl, rfl⟩ | ⟨rfl, rfl⟩ | ⟨rfl, u, q, rfl⟩ := exec_cases h
  · exact .inl q.imr
  · obtain ⟨-, -, -, -, -, -, -, -, hother, hset⟩ := writeReg_frame hw
    by_cases hm : a = s.par.imrAddr
    · cases h7 : s.imr.getLsbD 7 with
      | false => exact .inr (.inl ⟨rfl, hm ▸ ha⟩)
      | true => exact .inl (q'.imr.trans ((hset (by rw [q.imr]; exact h7)).trans q.imr))
    · exact .inl (q'.imr.trans ((hother (by rw [q.par]; exact hm)).trans q.imr))
  · exact .inr (.inr (.inl ⟨rfl, rfl⟩))
  · exact .inr (.inr (.inr ⟨.inl rfl, rfl⟩))
  · exact .inr (.inr (.inr ⟨.inr rfl, by rw [q.imr]⟩))

/-- The interrupt cycle clears the master enable and no other bit of IMR (R233). -/
theorem takeInterrupt_imr {n : Level} {s t : State} (h : takeInterrupt n s = .next t) :
    t.imr = clearBit7 s.imr := by
  obtain ⟨u, q, rfl⟩ := takeInterrupt_cases h
  exact congrArg clearBit7 q.imr

/-- The interrupt cycle leaves `IRQEN`. -/
theorem takeInterrupt_irqen {n : Level} {s t : State} (h : takeInterrupt n s = .next t) :
    t.irqen = s.irqen := by
  obtain ⟨u, q, rfl⟩ := takeInterrupt_cases h
  exact q.irqen

/-- The CPU moves in `s` and the bytes at PC decode to `i`. -/
def CpuAt (s : State) (i : Instr) : Prop :=
  nextTurn s = .cpu ∧ ∃ rest, decode (bytesAtPc s) = .ok (i, rest)

/-- `IRQEN` over one step of any agent (R46). -/
theorem step_irqen {s t : State} (h : step s = .next t) :
    t.irqen = s.irqen ∨ (CpuAt s .ei ∧ t.irqen = true) ∨ (nextTurn s = .reset ∧ t.irqen = false) := by
  obtain ⟨-, -, n, hn⟩ | ⟨hcpu, -, i, rest, hd, he⟩ | ⟨-, -, x, rfl⟩ | ⟨hr, rfl⟩ := step_cases h
  · exact .inl (by simpa using takeInterrupt_irqen hn)
  · obtain hkept | ⟨rfl, hset⟩ := exec_irqen he
    · exact .inl (by simpa using hkept)
    · exact .inr (.inl ⟨⟨hcpu, rest, fetch_eq s ▸ hd⟩, hset⟩)
  · exact .inl rfl
  · exact .inr (.inr ⟨hr, rfl⟩)

/-- What one step of any agent may do to IMR (R35, R37, R38). -/
inductive ImrStep (s t : State) : Prop where
  | kept (h : t.imr = s.imr)
  | written (i : Instr) (hcpu : CpuAt s i) (h7 : s.imr.getLsbD 7 = false)
      (hi : i.writtenOperand = some s.par.imrAddr)
  | disabled (hcpu : CpuAt s .di) (h : t.imr = clearBit7 s.imr)
  | enabled (i : Instr) (hcpu : CpuAt s i) (hi : i = .ei ∨ i = .iret) (h : t.imr = setBit7 s.imr)
  | cycle (hcpu : nextTurn s = .cpu) (hp : interruptPending (sample (dropTurn s)) = true)
      (h : t.imr = clearBit7 s.imr)
  | reset (hr : nextTurn s = .reset) (h7 : t.imr.getLsbD 7 = false)

/-- The reset event clears the master enable (R38). -/
theorem resetEvent_master (s : State) : (resetEvent s).imr.getLsbD 7 = false := by
  simp [resetEvent, BitVec.getLsbD_of_ge]

/-- IMR over one step of any agent (R35, R37, R38). -/
theorem step_imr {s t : State} (h : step s = .next t) : ImrStep s t := by
  obtain ⟨hcpu, hp, n, hn⟩ | ⟨hcpu, -, i, rest, hd, he⟩ | ⟨-, -, x, rfl⟩ | ⟨hr, rfl⟩ := step_cases h
  · exact .cycle hcpu hp (by simpa using takeInterrupt_imr hn)
  · have hat : CpuAt s i := ⟨hcpu, rest, fetch_eq s ▸ hd⟩
    have himr := exec_imr he
    simp only [sample_imr, sample_par, dropTurn_imr, dropTurn_par] at himr
    obtain hk | ⟨h7, hi⟩ | ⟨rfl, hc⟩ | ⟨hi, hs⟩ := himr
    · exact .kept hk
    · exact .written i hat h7 hi
    · exact .disabled hat hc
    · exact .enabled i hat hi hs
  · exact .kept rfl
  · exact .reset hr (resetEvent_master _)

/-- Clearing the master enable leaves the mask bits. -/
theorem clearBit7_low (v : Byte) : (clearBit7 v).extractLsb' 0 7 = v.extractLsb' 0 7 := by
  revert v; decide

/-- Setting the master enable leaves the mask bits. -/
theorem setBit7_low (v : Byte) : (setBit7 v).extractLsb' 0 7 = v.extractLsb' 0 7 := by
  revert v; decide

/-- Settles O9, by the cases of a step: each of them keeps the invariant. -/
theorem stepKeepsInv : Obligations.StepKeepsInv := by
  unfold Obligations.StepKeepsInv
  intro s t hi h
  have hd : Inv (dropTurn s) := ⟨hi.params, hi.pm, hi.rf, hi.dm, hi.held, hi.reserved⟩
  obtain ⟨-, -, n, hn⟩ | ⟨-, -, i, rest, -, he⟩ | ⟨-, -, x, rfl⟩ | ⟨-, rfl⟩ := step_cases h
  · exact inv_takeInterrupt (inv_sample hd) hn
  · exact inv_exec (inv_sample hd) he
  · exact ⟨hi.params, hi.pm, hi.rf, hi.dm, hi.held, hi.reserved⟩
  · exact inv_resetEvent hd

/-- Settles O11, by what a step does to `IRQEN`. -/
theorem irqenSetOnlyByEiClearedOnlyByReset : Obligations.IrqenSetOnlyByEiClearedOnlyByReset := by
  unfold Obligations.IrqenSetOnlyByEiClearedOnlyByReset
  intro s t h
  obtain hk | ⟨hei, hset⟩ | ⟨hr, hclear⟩ := step_irqen h
  · exact ⟨fun h0 h1 => by simp only [hk, h0, reduceCtorEq] at h1,
      fun h1 h0 => by simp only [hk, h1, reduceCtorEq] at h0⟩
  · exact ⟨fun _ _ => hei, fun _ h0 => by simp only [hset, reduceCtorEq] at h0⟩
  · exact ⟨fun _ h1 => by simp only [hclear, reduceCtorEq] at h1, fun _ _ => hr⟩

/-- Settles O12, by what a step does to IMR. -/
theorem masterEnableWriters : Obligations.MasterEnableWriters := by
  unfold Obligations.MasterEnableWriters
  intro s t h
  cases step_imr h with
  | kept hk =>
    exact ⟨fun h0 h1 => by simp only [hk, h0, reduceCtorEq] at h1,
      fun h1 h0 => by simp only [hk, h1, reduceCtorEq] at h0⟩
  | written i hcpu h7 hi =>
    obtain ⟨hturn, rest, hd⟩ := hcpu
    exact ⟨fun _ _ => ⟨hturn, i, rest, hd, .inr (.inr hi)⟩,
      fun h1 _ => by simp only [h7, reduceCtorEq] at h1⟩
  | disabled hcpu hc =>
    exact ⟨fun _ h1 => by simp only [hc, clearBit7_msb, reduceCtorEq] at h1,
      fun _ _ => .inr (.inr hcpu)⟩
  | enabled i hcpu hi hs =>
    obtain ⟨hturn, rest, hd⟩ := hcpu
    exact ⟨fun _ _ => ⟨hturn, i, rest, hd, hi.elim .inl fun hret => .inr (.inl hret)⟩,
      fun _ h0 => by simp only [hs, setBit7_msb, reduceCtorEq] at h0⟩
  | cycle hturn hp hc =>
    exact ⟨fun _ h1 => by simp only [hc, clearBit7_msb, reduceCtorEq] at h1,
      fun _ _ => .inr (.inl ⟨hturn, hp⟩)⟩
  | reset hr h7 => exact ⟨fun _ h1 => by simp only [h7, reduceCtorEq] at h1, fun _ _ => .inl hr⟩

/-- Settles O13, by what a step does to IMR: all but a register write leave bits 6:0. -/
theorem maskBitsChangeOnlyByWrite : Obligations.MaskBitsChangeOnlyByWrite := by
  unfold Obligations.MaskBitsChangeOnlyByWrite
  intro s t hturn h
  cases step_imr h with
  | kept hk => exact .inl (by rw [hk])
  | written i hcpu h7 hi =>
    obtain ⟨-, rest, hd⟩ := hcpu
    exact .inr ⟨h7, i, rest, hd, hi⟩
  | disabled _ hc => exact .inl (by rw [hc, clearBit7_low])
  | enabled _ _ _ hs => exact .inl (by rw [hs, setBit7_low])
  | cycle _ _ hc => exact .inl (by rw [hc, clearBit7_low])
  | reset hr _ => rw [hturn] at hr; cases hr

end Sys2Proof.Machine

/-! ### The register operand -/

namespace Sys2Proof.Machine

open Sys2Proof.Safety

/-- The addresses that name no location have the high nibble EH (R25). -/
theorem not_namesLocation (a : Byte) : (!namesLocation a) = decide (a.extractLsb' 4 4 = 0xE#4) := by
  by_cases h : a.extractLsb' 4 4 = 0xE#4 <;> simp [namesLocation, h]

/-- The refusal of a register operand outside the model: by one name for E0H to EFH, by another for
the rest (R26, R27, D26, D27). -/
def operandRefusal (a : Byte) : Refusal :=
  if 0xE0#8 ≤ a ∧ a ≤ 0xEF#8 then .workingRegister a else .registerOutsideModel a

theorem operandRefusal_eq (a : Byte) :
    operandRefusal a =
      if namesLocation a then .registerOutsideModel a else .workingRegister a := by
  rw [operandRefusal, namesLocation_eq]
  by_cases h : 0xE0#8 ≤ a ∧ a ≤ 0xEF#8 <;> simp [h]

theorem readReg_refused {a : Byte} {s : State} (h : canRead s a = false) :
    readReg a s = .refused (operandRefusal a) := by
  rw [readReg_eq, operandRefusal_eq, h]
  cases namesLocation a <;> rfl

/-- A register that cannot be read is none of IRQ, IMR and IPR. -/
theorem ne_interruptRegister {a : Byte} {s : State} (h : canRead s a = false) :
    a ≠ s.par.irqAddr ∧ a ≠ s.par.imrAddr ∧ a ≠ s.par.iprAddr := by
  simp only [canRead, isInterruptRegister, Bool.or_eq_false_iff, beq_eq_false_iff_ne] at h
  obtain ⟨⟨⟨hirq, himr⟩, hipr⟩, -⟩ := h
  exact ⟨hirq, himr, hipr⟩

theorem writeReg_refused {a : Byte} (v : Byte) {s : State} (h : canRead s a = false) :
    writeReg a v s = .refused (operandRefusal a) := by
  have hw : canWrite s a v = false := by
    cases hc : canWrite s a v with
    | false => rfl
    | true => rw [canRead_of_canWrite hc] at h; exact h
  obtain ⟨-, himr, hipr⟩ := ne_interruptRegister h
  rw [writeReg_eq, operandRefusal_eq, hw, if_neg himr, if_neg hipr]
  cases namesLocation a <;> rfl

@[simp] theorem afterRead_par (s : State) (a : Byte) : (afterRead s a).par = s.par :=
  (quiet_afterRead s a).par

@[simp] theorem afterRead_imr (s : State) (a : Byte) : (afterRead s a).imr = s.imr :=
  (quiet_afterRead s a).imr

@[simp] theorem canRead_setSp (s : State) (w : Addr) (a : Byte) :
    canRead (s.setSp w) a = canRead s a := by simp [canRead]

theorem canRead_imr (s : State) : canRead s s.par.imrAddr = true := by
  simp [canRead, isInterruptRegister]

theorem canRead_ipr (s : State) : canRead s s.par.iprAddr = true := by
  simp [canRead, isInterruptRegister]

theorem regValue_imr {s : State} (hp : paramsWf s.par = true) :
    regValue s s.par.imrAddr = s.imr := by
  simp [regValue, Ne.symm (paramsWf_facts hp).irq_ne_imr]

theorem canWrite_imr {s : State} (v : Byte) (hp : paramsWf s.par = true) :
    canWrite s s.par.imrAddr v = (!s.imr.getLsbD 7 && !v.getLsbD 6) := by
  rw [canWrite, if_neg (Ne.symm (paramsWf_facts hp).irq_ne_imr), if_pos rfl]

theorem canWrite_ipr {s : State} (v : Byte) (hp : paramsWf s.par = true) :
    canWrite s s.par.iprAddr v = !s.imr.getLsbD 7 := by
  have hf := paramsWf_facts hp
  rw [canWrite, if_neg hf.ipr_ne_irq, if_neg hf.ipr_ne_imr, if_pos rfl]

/-- A write to IMR stops while the master enable is set (R37, D10). -/
theorem writeReg_imr_enabled (v : Byte) {s : State} (hp : paramsWf s.par = true)
    (h7 : s.imr.getLsbD 7 = true) :
    writeReg s.par.imrAddr v s = .fault .imrChangedWhileEnabled := by
  rw [writeReg_eq, canWrite_imr v hp, h7, if_pos rfl, if_pos rfl]
  rfl

/-- A write to IPR stops while the master enable is set (R42, D10). -/
theorem writeReg_ipr_enabled (v : Byte) {s : State} (hp : paramsWf s.par = true)
    (h7 : s.imr.getLsbD 7 = true) :
    writeReg s.par.iprAddr v s = .fault .iprChangedWhileEnabled := by
  rw [writeReg_eq, canWrite_ipr v hp, h7, if_neg (paramsWf_facts hp).ipr_ne_imr, if_pos rfl]
  rfl

/-- The stop of a 1 written to `IMR[6]`: the reserved bit, or RAM Protect's (R36, D12). -/
def maskBitStop (p : Params) : Res State :=
  if p.ramProtect then .refused .ramProtectFunction else .fault .imrBit6Reserved

/-- A write to IMR with bit 6 of the byte set stops, with the master enable clear (R36). -/
theorem writeReg_imr_bit6 {v : Byte} {s : State} (hp : paramsWf s.par = true)
    (h7 : s.imr.getLsbD 7 = false) (h6 : v.getLsbD 6 = true) :
    writeReg s.par.imrAddr v s = maskBitStop s.par := by
  rw [writeReg_eq, canWrite_imr v hp, h7, h6, if_pos rfl]
  rfl

/-- Settles O28: the chain of the read, with the addresses that name no location by their nibble. -/
theorem registerReadByAddress : Obligations.RegisterReadByAddress := by
  unfold Obligations.RegisterReadByAddress
  intro a s
  rw [readReg, not_namesLocation]
  simp only [decide_eq_true_eq, readIpr]

/-- Settles O29: the chain of the write, with what a write to IRQ leaves as one state. -/
theorem registerWriteByAddress : Obligations.RegisterWriteByAddress := by
  unfold Obligations.RegisterWriteByAddress
  intro a v s
  rw [writeReg, not_namesLocation, writeIrq_eq]
  simp only [decide_eq_true_eq, writeImr, writeIpr, withLow6, State.writeRf]

/-! ### The stop of a register access is the stop of the instruction that makes it -/

/-- The operation answers no next state. -/
def Stops {α : Type} (o : Res α) : Prop := ∀ a, o ≠ .next a

theorem fault_stops {α : Type} (r : Fault) : Stops (.fault r : Res α) := fun _ h => nomatch h

theorem maskBitStop_stops (p : Params) : Stops (maskBitStop p) := by
  unfold maskBitStop
  intro t
  split <;> exact fun h => nomatch h

/-- Nothing runs after a stop. -/
theorem andThen_stop {α : Type} {o : Res α} (h : Stops o) (k : α → Res α) : andThen o k = o := by
  cases o with
  | next a => exact absurd rfl (h a)
  | fault r => rfl
  | refused r => rfl

/-- OR and AND stop as their write stops, once the read went on (R121, R122). -/
theorem combineInto_stop {f : Byte → Byte} {dst : Byte} {s : State} {stop : Res State}
    (hs : Stops stop) (hr : canRead s dst = true)
    (hw : writeReg dst (f (regValue s dst)) (afterRead s dst) = stop) :
    combineInto f dst s = stop := by
  unfold combineInto
  rw [readReg_next hr, andThen_next, hw, andThen_stop hs]

theorem combineInto_refused (f : Byte → Byte) {dst : Byte} {s : State} (h : canRead s dst = false) :
    combineInto f dst s = .refused (operandRefusal dst) := by
  rw [combineInto, readReg_refused h, andThen_refused]

theorem combineTest_refused (f : Byte → Byte) {dst : Byte} {s : State} (h : canRead s dst = false) :
    combineTest f dst s = .refused (operandRefusal dst) := by
  rw [combineTest, readReg_refused h, andThen_refused]

theorem exec_push_refused {src : Byte} {s : State} (hspl : src ≠ s.par.splAddr)
    (hsph : src ≠ s.par.sphAddr) (h : canRead s src = false) :
    exec (.push src) s = .refused (operandRefusal src) := by
  rw [exec_push, isStackPointer_false hspl hsph,
    readReg_refused (show canRead (s.advance 2) src = false from h)]
  rfl

/-- POP from a stack slot writes the byte at SP to its destination (R126). -/
theorem exec_pop_slot {dst : Byte} {s : State} (hspl : dst ≠ s.par.splAddr)
    (hsph : dst ≠ s.par.sphAddr) (hslot : stackSlot s s.sp = true) :
    exec (.pop dst) s =
      writeReg dst (stackByte s s.sp) ((s.advance 2).setSp (s.sp + 1#16)) := by
  rw [exec_pop, isStackPointer_false hspl hsph,
    pop8_next (show stackSlot (s.advance 2) (s.advance 2).sp = true from hslot)]
  rfl

/-- Settles O47: each instruction stops as its write to IMR or IPR stops; TM makes no write. -/
theorem maskAndPriorityProtected : Obligations.MaskAndPriorityProtected := by
  unfold Obligations.MaskAndPriorityProtected
  intro im s hp h7
  have hf := paramsWf_facts hp
  obtain ⟨hsph_ipr, -, hsph_imr⟩ := hf.sph_ne_int
  obtain ⟨hspl_ipr, -, hspl_imr⟩ := hf.spl_ne_int
  have imrStop : ∀ (v : Byte) (u : State), u.par = s.par → u.imr = s.imr →
      writeReg s.par.imrAddr v u = .fault .imrChangedWhileEnabled := fun v u hpar himr =>
    hpar ▸ writeReg_imr_enabled v (hpar ▸ hp) (himr ▸ h7)
  have iprStop : ∀ (v : Byte) (u : State), u.par = s.par → u.imr = s.imr →
      writeReg s.par.iprAddr v u = .fault .iprChangedWhileEnabled := fun v u hpar himr =>
    hpar ▸ writeReg_ipr_enabled v (hpar ▸ hp) (himr ▸ h7)
  have imrCombine : ∀ f, combineInto f s.par.imrAddr (s.advance 3) = .fault .imrChangedWhileEnabled :=
    fun f => combineInto_stop (fault_stops _) (canRead_imr s) (imrStop _ _ (by simp) (by simp))
  have iprCombine : ∀ f, combineInto f s.par.iprAddr (s.advance 3) = .fault .iprChangedWhileEnabled :=
    fun f => combineInto_stop (fault_stops _) (canRead_ipr s) (iprStop _ _ (by simp) (by simp))
  simp only [exec_clr, exec_ld, exec_or, exec_and, exec_tm]
  refine ⟨imrStop _ _ rfl rfl, imrStop _ _ rfl rfl, imrCombine _, imrCombine _,
    iprStop _ _ rfl rfl, iprStop _ _ rfl rfl, iprCombine _, iprCombine _, fun hslot => ⟨?_, ?_⟩, ?_⟩
  · rw [exec_pop_slot (Ne.symm hspl_imr) (Ne.symm hsph_imr) hslot]
    exact imrStop _ _ (by simp) (by simp)
  · rw [exec_pop_slot (Ne.symm hspl_ipr) (Ne.symm hsph_ipr) hslot]
    exact iprStop _ _ (by simp) (by simp)
  · exact ⟨_, combineTest_next (canRead_imr s)⟩

/-- Settles O48: each instruction stops as its write of the byte to IMR stops; CLR writes no 1. -/
theorem reservedMaskBitStops : Obligations.ReservedMaskBitStops := by
  unfold Obligations.ReservedMaskBitStops
  intro im s hp h7
  have hf := paramsWf_facts hp
  obtain ⟨-, -, hsph_imr⟩ := hf.sph_ne_int
  obtain ⟨-, -, hspl_imr⟩ := hf.spl_ne_int
  have imrStop : ∀ (v : Byte) (u : State), u.par = s.par → u.imr = s.imr → v.getLsbD 6 = true →
      writeReg s.par.imrAddr v u = maskBitStop s.par := fun v u hpar himr h6 =>
    hpar ▸ writeReg_imr_bit6 (hpar ▸ hp) (himr ▸ h7) h6
  have imrCombine : ∀ f : Byte → Byte, (f s.imr).getLsbD 6 = true →
      combineInto f s.par.imrAddr (s.advance 3) = maskBitStop s.par := fun f h6 =>
    combineInto_stop (maskBitStop_stops _) (canRead_imr s)
      (imrStop _ _ (by simp) (by simp) (by rw [regValue_advance, regValue_imr hp]; exact h6))
  rw [exec_ld, exec_or, exec_and, exec_clr]
  refine ⟨imrStop im _ rfl rfl, imrCombine (fun t => t ||| im), imrCombine (fun t => t &&& im),
    fun hslot h6 => ?_, ?_⟩
  · rw [exec_pop_slot (Ne.symm hspl_imr) (Ne.symm hsph_imr) hslot]
    exact imrStop _ _ (by simp) (by simp) h6
  · have hclear : canWrite (s.advance 2) s.par.imrAddr 0x00#8 = true := by
      rw [canWrite_advance, canWrite_imr _ hp, h7]; rfl
    exact ⟨_, writeReg_next hclear⟩

/-- Settles O49: each instruction is refused as its first register access is. -/
theorem registerOperandsRefused : Obligations.RegisterOperandsRefused := by
  unfold Obligations.RegisterOperandsRefused
  intro a im s _ h
  have h3 : canRead (s.advance 3) a = false := h
  simp only [exec_clr, exec_ld, exec_or, exec_and, exec_tm]
  refine ⟨writeReg_refused 0x00#8 (s := s.advance 2) h, writeReg_refused im h3,
    combineInto_refused _ h3, combineInto_refused _ h3, combineTest_refused _ h3,
    fun hspl hsph => ⟨exec_push_refused hspl hsph h, fun hslot => ?_⟩⟩
  rw [exec_pop_slot hspl hsph hslot]
  exact writeReg_refused _ (by simpa using h)

end Sys2Proof.Machine

/-! ### The state after reset -/

namespace Sys2Proof.Machine

open Sys2Proof.Safety

/-- Settles O6: each value stands in the state after reset. -/
theorem resetLeavesInterruptsOff : Obligations.ResetLeavesInterruptsOff := by
  unfold Obligations.ResetLeavesInterruptsOff
  exact ⟨rfl, rfl, rfl, rfl, rfl⟩

/-- Settles O8: empty memories are canonical, and IRQ is 00H. -/
theorem resetMeetsInv : Obligations.ResetMeetsInv := by
  unfold Obligations.ResetMeetsInv
  exact {
    params := by decide
    pm := Memory.wf_nil 65536
    rf := Memory.wf_nil 256
    dm := Memory.wf_nil 65536
    held := fun _ => rfl
    reserved := fun _ => rfl }

end Sys2Proof.Machine

/-! ### Instructions do not depend on the byte IPR holds -/

namespace Sys2Proof.Machine

open Sys2Proof.Safety

/-- The states differ at most in the byte IPR holds. -/
def SameButIpr (s t : State) : Prop := ∃ x, t = { s with ipr := x }

/-- The values are the same, and the states beside them but for IPR. -/
def SamePairButIpr (r q : Byte × State) : Prop := q.1 = r.1 ∧ SameButIpr r.2 q.2

/-- The outcomes are of one kind: related values, or the same stop. -/
inductive Alike {α : Type} (R : α → α → Prop) : Res α → Res α → Prop where
  | next {a b : α} (h : R a b) : Alike R (.next a) (.next b)
  | fault (r : Fault) : Alike R (.fault r) (.fault r)
  | refused (r : Refusal) : Alike R (.refused r) (.refused r)

/-- Alike operations followed by alike continuations are alike. -/
theorem Alike.andThen {α β : Type} {R : α → α → Prop} {Q : β → β → Prop} {o p : Res α}
    {k l : α → Res β} (h : Alike R o p) (hk : ∀ a b, R a b → Alike Q (k a) (l b)) :
    Alike Q (andThen o k) (andThen p l) := by
  cases h with
  | next hab => exact hk _ _ hab
  | fault r => exact .fault r
  | refused r => exact .refused r

theorem Alike.ite {α : Type} {R : α → α → Prop} {c : Prop} [Decidable c] {o o' p p' : Res α}
    (h : Alike R o p) (h' : Alike R o' p') :
    Alike R (if c then o else o') (if c then p else p') := by
  split
  · exact h
  · exact h'

section

variable {s t : State}

theorem SameButIpr.writeRf (h : SameButIpr s t) (a v : Byte) :
    SameButIpr (s.writeRf a v) (t.writeRf a v) := by
  obtain ⟨x, rfl⟩ := h
  exact ⟨x, rfl⟩

theorem SameButIpr.advance (h : SameButIpr s t) (n : Nat) :
    SameButIpr (s.advance n) (t.advance n) := by
  obtain ⟨x, rfl⟩ := h
  exact ⟨x, rfl⟩

theorem SameButIpr.sp_eq (h : SameButIpr s t) : t.sp = s.sp := by
  obtain ⟨x, rfl⟩ := h
  rfl

theorem SameButIpr.setFlags (h : SameButIpr s t) (v : Byte) :
    SameButIpr (s.setFlags v) (t.setFlags v) := by
  obtain ⟨x, rfl⟩ := h
  exact ⟨x, rfl⟩

theorem SameButIpr.withLogicFlags (h : SameButIpr s t) (r : Byte) :
    SameButIpr (s.withLogicFlags r) (t.withLogicFlags r) := by
  obtain ⟨x, rfl⟩ := h
  exact ⟨x, rfl⟩

theorem SameButIpr.setPc (h : SameButIpr s t) (w : Addr) :
    SameButIpr { s with pc := w } { t with pc := w } := by
  obtain ⟨x, rfl⟩ := h
  exact ⟨x, rfl⟩

theorem SameButIpr.setSp (h : SameButIpr s t) (w : Addr) :
    SameButIpr (s.setSp w) (t.setSp w) := by
  obtain ⟨x, rfl⟩ := h
  unfold State.setSp
  dsimp only
  split <;> exact ⟨x, rfl⟩

/-- A read of any register, IPR included, gives a value that does not depend on IPR (R42, D9). -/
theorem alike_readReg (h : SameButIpr s t) (a : Byte) :
    Alike SamePairButIpr (readReg a s) (readReg a t) := by
  obtain ⟨x, rfl⟩ := h
  unfold readReg
  exact .ite (.next ⟨rfl, x, rfl⟩) (.ite (.next ⟨rfl, x, rfl⟩) (.ite (.next ⟨rfl, x, rfl⟩)
    (.ite (.refused _) (.ite (.next ⟨rfl, x, rfl⟩) (.refused _)))))

theorem SameButIpr.writeIrq (h : SameButIpr s t) (v : Byte) :
    SameButIpr (writeIrq v s) (writeIrq v t) := by
  obtain ⟨x, rfl⟩ := h
  rw [writeIrq_eq, writeIrq_eq]
  exact ⟨x, rfl⟩

theorem alike_writeReg (h : SameButIpr s t) (a v : Byte) :
    Alike SameButIpr (writeReg a v s) (writeReg a v t) := by
  have hirq := h.writeIrq v
  obtain ⟨x, rfl⟩ := h
  unfold writeReg writeImr writeIpr
  exact .ite (.next hirq)
    (.ite (.ite (.fault _) (.ite (.ite (.refused _) (.fault _)) (.next ⟨x, rfl⟩)))
    (.ite (.ite (.fault _) (.next ⟨withLow6 x v, rfl⟩))
    (.ite (.refused _) (.ite (.next ⟨x, rfl⟩) (.refused _)))))

theorem SameButIpr.readStk_eq (h : SameButIpr s t) (a : Addr) : readStk a t = readStk a s := by
  obtain ⟨x, rfl⟩ := h
  rfl

theorem alike_writeStk (h : SameButIpr s t) (a : Addr) (v : Byte) :
    Alike SameButIpr (writeStk a v s) (writeStk a v t) := by
  obtain ⟨x, rfl⟩ := h
  exact .ite (.ite (.next ⟨x, rfl⟩) (.refused _)) (.next ⟨x, rfl⟩)

theorem alike_push8 (h : SameButIpr s t) (v : Byte) :
    Alike SameButIpr (push8 v s) (push8 v t) := by
  have hset := h.setSp (s.sp - 1#16)
  unfold push8
  rw [h.sp_eq]
  dsimp only
  rw [hset.sp_eq]
  exact alike_writeStk hset _ v

theorem alike_pop8 (h : SameButIpr s t) : Alike SamePairButIpr (pop8 s) (pop8 t) := by
  unfold pop8
  rw [h.sp_eq, h.readStk_eq]
  cases readStk s.sp s with
  | next v => exact .next ⟨rfl, h.setSp _⟩
  | fault r => exact .fault r
  | refused r => exact .refused r

theorem alike_pushAddr (h : SameButIpr s t) (w : Addr) :
    Alike SameButIpr (pushAddr w s) (pushAddr w t) :=
  (alike_push8 h (lo8 w)).andThen fun _ _ h1 => alike_push8 h1 (hi8 w)

theorem alike_popPc (h : SameButIpr s t) : Alike SameButIpr (popPc s) (popPc t) :=
  (alike_pop8 h).andThen fun hi hi' ⟨hhi, h1⟩ =>
    (alike_pop8 h1).andThen fun lo lo' ⟨hlo, h2⟩ => by
      rw [hhi, hlo]
      exact .next (h2.setPc _)

theorem alike_returnFromInterrupt (h : SameButIpr s t) :
    Alike SameButIpr (returnFromInterrupt s) (returnFromInterrupt t) :=
  (alike_pop8 h).andThen fun f f' ⟨hf, h1⟩ => by
    rw [hf]
    refine (alike_popPc (h1.setFlags f.1)).andThen fun u u' h2 => ?_
    obtain ⟨x, rfl⟩ := h2
    exact .next ⟨x, rfl⟩

theorem alike_combineInto (h : SameButIpr s t) (f : Byte → Byte) (dst : Byte) :
    Alike SameButIpr (combineInto f dst s) (combineInto f dst t) :=
  (alike_readReg h dst).andThen fun r r' ⟨hr, h1⟩ => by
    rw [hr]
    exact (alike_writeReg h1 dst (f r.1)).andThen fun u u' h2 => .next (h2.withLogicFlags (f r.1))

theorem alike_combineTest (h : SameButIpr s t) (f : Byte → Byte) (dst : Byte) :
    Alike SameButIpr (combineTest f dst s) (combineTest f dst t) :=
  (alike_readReg h dst).andThen fun r r' ⟨hr, h1⟩ => by
    rw [hr]
    exact .next (h1.withLogicFlags (f r.1))

end

/-- Every instruction answers alike whatever byte IPR holds (R226). -/
theorem alike_exec (i : Instr) (s : State) (x : Byte) :
    Alike SameButIpr (exec i s) (exec i { s with ipr := x }) := by
  have h : SameButIpr s { s with ipr := x } := ⟨x, rfl⟩
  cases i with
  | di => exact .next ⟨x, rfl⟩
  | ei => exact .next ⟨x, rfl⟩
  | iret =>
    rw [exec_iret, exec_iret]
    exact alike_returnFromInterrupt (h.advance 1)
  | clr dst =>
    rw [exec_clr, exec_clr]
    exact alike_writeReg (h.advance 2) dst 0x00#8
  | or dst im =>
    rw [exec_or, exec_or]
    exact alike_combineInto (h.advance 3) _ dst
  | and dst im =>
    rw [exec_and, exec_and]
    exact alike_combineInto (h.advance 3) _ dst
  | tm dst im =>
    rw [exec_tm, exec_tm]
    exact alike_combineTest (h.advance 3) _ dst
  | ld dst im =>
    rw [exec_ld, exec_ld]
    exact alike_writeReg (h.advance 3) dst im
  | push src =>
    rw [exec_push, exec_push]
    exact .ite (.refused _) ((alike_readReg (h.advance 2) src).andThen fun r r' ⟨hr, h1⟩ => by
      rw [hr]
      exact alike_push8 h1 r.1)
  | pop dst =>
    rw [exec_pop, exec_pop]
    exact .ite (.refused _) ((alike_pop8 (h.advance 2)).andThen fun r r' ⟨hr, h1⟩ => by
      rw [hr]
      exact alike_writeReg h1 dst r.1)
  | jr cc ra =>
    rw [exec_jr, exec_jr]
    exact .next (h.setPc _)
  | call da =>
    rw [exec_call, exec_call]
    exact (alike_pushAddr (h.advance 3) _).andThen fun u u' h1 => .next (h1.setPc da)
  | ret =>
    rw [exec_ret, exec_ret]
    exact alike_popPc (h.advance 1)

/-- Settles O14: whatever byte IPR holds, an instruction answers alike. -/
theorem iprDoesNotInfluenceInstructions : Obligations.IprDoesNotInfluenceInstructions := by
  unfold Obligations.IprDoesNotInfluenceInstructions
  intro i s x
  have key := alike_exec i s x
  generalize exec i s = o at key ⊢
  generalize exec i { s with ipr := x } = p at key ⊢
  cases key with
  | next h =>
    obtain ⟨y, rfl⟩ := h
    exact ⟨fun t ht => by cases ht; exact ⟨y, rfl⟩, fun _ h => (nomatch h), fun _ h => (nomatch h)⟩
  | fault r => exact ⟨fun _ h => (nomatch h), fun _ h => h, fun _ h => (nomatch h)⟩
  | refused r => exact ⟨fun _ h => (nomatch h), fun _ h => (nomatch h), fun _ h => h⟩

end Sys2Proof.Machine

/-! ### Memory: what a step leaves of program memory, and stack accesses outside the stack region -/

namespace Sys2Proof.Machine

open Sys2Proof.Safety

/-- Settles O30, by the read-after-write law of memory, an induction on its entries. -/
theorem memoryReadsLastWrite : Obligations.MemoryReadsLastWrite := by
  unfold Obligations.MemoryReadsLastWrite
  exact Memory.read_write

/-- No instruction writes program memory or the parameters (R60, R73). -/
theorem exec_pm_par {i : Instr} {s t : State} (h : exec i s = .next t) :
    t.pm = s.pm ∧ t.par = s.par := by
  obtain q | ⟨a, v, u, w, -, q, hw, q'⟩ | ⟨-, rfl⟩ | ⟨-, rfl⟩ | ⟨-, u, q, rfl⟩ := exec_cases h
  · exact ⟨q.pm, q.par⟩
  · obtain ⟨hpar, hpm, -⟩ := writeReg_frame hw
    exact ⟨q'.pm.trans (hpm.trans q.pm), q'.par.trans (hpar.trans q.par)⟩
  · exact ⟨rfl, rfl⟩
  · exact ⟨rfl, rfl⟩
  · exact ⟨q.pm, q.par⟩

/-- The interrupt cycle only reads program memory (R230, R234). -/
theorem takeInterrupt_pm_par {n : Level} {s t : State} (h : takeInterrupt n s = .next t) :
    t.pm = s.pm ∧ t.par = s.par := by
  obtain ⟨u, q, rfl⟩ := takeInterrupt_cases h
  exact ⟨q.pm, q.par⟩

/-- No move of any agent writes program memory or the parameters (R60, R73, D17, log 1). -/
theorem step_pm_par {s t : State} (h : step s = .next t) : t.pm = s.pm ∧ t.par = s.par := by
  obtain ⟨-, -, n, hn⟩ | ⟨-, -, i, rest, -, he⟩ | ⟨-, -, x, rfl⟩ | ⟨-, rfl⟩ := step_cases h
  · simpa using takeInterrupt_pm_par hn
  · simpa using exec_pm_par he
  · exact ⟨rfl, rfl⟩
  · exact ⟨rfl, rfl⟩

/-- Settles O10: program memory as a whole is what it was, so each of its bytes is. -/
theorem stepKeepsProgramMemory : Obligations.StepKeepsProgramMemory := by
  unfold Obligations.StepKeepsProgramMemory
  intro s t h
  obtain ⟨hpm, hpar⟩ := step_pm_par h
  exact ⟨fun a => by rw [hpm], hpar⟩

section

variable {s : State}

/-- A program address is not pushed where its low byte has no stack slot (R64). -/
theorem pushAddr_stop_low (w : Addr) (hp : paramsWf s.par = true)
    (h1 : stackSlot s (s.sp - 1#16) = false) :
    pushAddr w s = .refused (.stackOutsideGeneral (lo8 (s.sp - 1#16))) := by
  rw [pushAddr, push8_stop _ hp h1, andThen_refused]

/-- A program address is not pushed where its high byte has no stack slot (R64). -/
theorem pushAddr_stop_high (w : Addr) (hp : paramsWf s.par = true)
    (h1 : stackSlot s (s.sp - 1#16) = true) (h2 : stackSlot s (s.sp - 2#16) = false) :
    pushAddr w s = .refused (.stackOutsideGeneral (lo8 (s.sp - 2#16))) := by
  have hsp : (afterPush s (lo8 w)).sp - 1#16 = s.sp - 2#16 := by
    rw [sp_afterPush _ hp h1, sub_one_sub_one]
  rw [pushAddr, push8_next _ hp h1, andThen_next, ← hsp]
  exact push8_stop _ (by simpa using hp) (by simpa [hsp] using h2)

/-- A byte pushed after a program address is refused where it has no stack slot (R64, R230). -/
theorem push8_stop_afterPushAddr (v : Byte) (w : Addr) (hp : paramsWf s.par = true)
    (h1 : stackSlot s (s.sp - 1#16) = true) (h2 : stackSlot s (s.sp - 2#16) = true)
    (h3 : stackSlot s (s.sp - 3#16) = false) :
    push8 v (afterPushAddr s w) = .refused (.stackOutsideGeneral (lo8 (s.sp - 3#16))) := by
  have hsp : (afterPushAddr s w).sp - 1#16 = s.sp - 3#16 := by
    rw [sp_afterPushAddr _ hp h1 h2, sub_two_sub_one]
  rw [← hsp]
  exact push8_stop v (by simpa [afterPushAddr] using hp)
    (by rw [hsp]; simpa [afterPushAddr] using h3)

/-- The state whose PC and FLAGS the interrupt cycle pushes: the serviced request is withdrawn
(R232). -/
def withdrawn (n : Level) (s : State) : State := { s with irq := s.irq &&& ~~~(levelBit n) }

theorem takeInterrupt_eq (n : Level) (s : State) :
    takeInterrupt n s =
      andThen (pushAddr s.pc (withdrawn n s)) fun t =>
      andThen (push8 t.flags t) fun u =>
      .next { u with imr := clearBit7 u.imr, pc := vector u n } := rfl

/-- The interrupt cycle stops where its push of PC does (R230). -/
theorem takeInterrupt_stop_pc {n : Level} {r : Refusal}
    (h : pushAddr s.pc (withdrawn n s) = .refused r) : takeInterrupt n s = .refused r := by
  rw [takeInterrupt_eq, h, andThen_refused]

/-- The interrupt cycle stops where its push of FLAGS does (R230). -/
theorem takeInterrupt_stop_flags {n : Level} {t : State} {r : Refusal}
    (h : pushAddr s.pc (withdrawn n s) = .next t) (h' : push8 t.flags t = .refused r) :
    takeInterrupt n s = .refused r := by
  rw [takeInterrupt_eq, h, andThen_next, h', andThen_refused]

/-- A program address is not popped where its high byte is no stack slot (R64). -/
theorem popPc_stop_high (h1 : stackSlot s s.sp = false) :
    popPc s = .refused (.stackOutsideGeneral (lo8 s.sp)) := by
  rw [popPc, pop8_stop h1, andThen_refused]

/-- A program address is not popped where its low byte is no stack slot (R64). -/
theorem popPc_stop_low (hp : paramsWf s.par = true) (h1 : stackSlot s s.sp = true)
    (h2 : stackSlot s (s.sp + 1#16) = false) :
    popPc s = .refused (.stackOutsideGeneral (lo8 (s.sp + 1#16))) := by
  have hsp := sp_pop hp h1
  have hstop : pop8 (s.setSp (s.sp + 1#16)) = .refused (.stackOutsideGeneral (lo8 (s.sp + 1#16))) := by
    rw [pop8_stop (by rw [hsp, stackSlot_setSp]; exact h2), hsp]
  rw [popPc, pop8_next h1, andThen_next, hstop, andThen_refused]

@[simp] theorem afterPopFlags_par (s : State) : (afterPopFlags s).par = s.par := by
  simp [afterPopFlags]

@[simp] theorem stackSlot_afterPopFlags (s : State) (a : Addr) :
    stackSlot (afterPopFlags s) a = stackSlot s a := by simp [afterPopFlags]

theorem sp_afterPopFlags (hp : paramsWf s.par = true) (h1 : stackSlot s s.sp = true) :
    (afterPopFlags s).sp = s.sp + 1#16 := by
  rw [afterPopFlags, sp_setFlags _ _ (by simpa using hp), sp_pop hp h1]

/-- IRET stops where its pop of FLAGS has no stack slot (R64, R102). -/
theorem returnFromInterrupt_stop_flags (h1 : stackSlot s s.sp = false) :
    returnFromInterrupt s = .refused (.stackOutsideGeneral (lo8 s.sp)) := by
  rw [returnFromInterrupt, pop8_stop h1, andThen_refused]

/-- IRET stops where its pop of PC does (R102). -/
theorem returnFromInterrupt_stop_pc {r : Refusal} (h1 : stackSlot s s.sp = true)
    (h : popPc (afterPopFlags s) = .refused r) : returnFromInterrupt s = .refused r := by
  rw [returnFromInterrupt, pop8_next h1, andThen_next]
  change andThen (popPc (afterPopFlags s)) _ = _
  rw [h, andThen_refused]

/-- IRET stops where the second byte of its frame is no stack slot (R64, R102). -/
theorem returnFromInterrupt_stop_high (hp : paramsWf s.par = true) (h1 : stackSlot s s.sp = true)
    (h2 : stackSlot s (s.sp + 1#16) = false) :
    returnFromInterrupt s = .refused (.stackOutsideGeneral (lo8 (s.sp + 1#16))) := by
  have hsp := sp_afterPopFlags hp h1
  apply returnFromInterrupt_stop_pc h1
  rw [popPc_stop_high (by simpa [hsp] using h2), hsp]

/-- IRET stops where the third byte of its frame is no stack slot (R64, R102). -/
theorem returnFromInterrupt_stop_low (hp : paramsWf s.par = true) (h1 : stackSlot s s.sp = true)
    (h2 : stackSlot s (s.sp + 1#16) = true) (h3 : stackSlot s (s.sp + 2#16) = false) :
    returnFromInterrupt s = .refused (.stackOutsideGeneral (lo8 (s.sp + 2#16))) := by
  have hsp := sp_afterPopFlags hp h1
  apply returnFromInterrupt_stop_pc h1
  rw [popPc_stop_low (by simpa using hp) (by simpa [hsp] using h2)
    (by simpa [hsp, add_one_add_one] using h3), hsp, add_one_add_one]

/-- A read of a register leaves SP. -/
@[simp] theorem sp_afterRead (s : State) (a : Byte) : (afterRead s a).sp = s.sp := by
  obtain ⟨k, hk⟩ := afterRead_frame s a
  rw [hk]
  rfl

@[simp] theorem stackSlot_afterRead (s : State) (b : Byte) (a : Addr) :
    stackSlot (afterRead s b) a = stackSlot s a := by simp [stackSlot]

/-- PUSH of a readable register is the push of its value (R125). -/
theorem exec_push_readable {src : Byte} (hspl : src ≠ s.par.splAddr) (hsph : src ≠ s.par.sphAddr)
    (h : canRead s src = true) :
    exec (.push src) s = push8 (regValue s src) (afterRead (s.advance 2) src) := by
  rw [exec_push, isStackPointer_false hspl hsph,
    readReg_next (show canRead (s.advance 2) src = true from h)]
  rfl

/-- PUSH of a readable register is refused where the byte below SP is no stack slot (R64, R125). -/
theorem exec_push_stop {src : Byte} (hp : paramsWf s.par = true) (hspl : src ≠ s.par.splAddr)
    (hsph : src ≠ s.par.sphAddr) (hr : canRead s src = true)
    (h1 : stackSlot s (s.sp - 1#16) = false) :
    exec (.push src) s = .refused (.stackOutsideGeneral (lo8 (s.sp - 1#16))) := by
  rw [exec_push_readable hspl hsph hr, push8_stop _ (by simpa using hp) (by simpa using h1),
    sp_afterRead, State.sp_advance]

/-- POP is refused where the byte at SP is no stack slot, whatever its destination (R64, R126). -/
theorem exec_pop_stop {dst : Byte} (hspl : dst ≠ s.par.splAddr) (hsph : dst ≠ s.par.sphAddr)
    (h1 : stackSlot s s.sp = false) :
    exec (.pop dst) s = .refused (.stackOutsideGeneral (lo8 s.sp)) := by
  rw [exec_pop, isStackPointer_false hspl hsph,
    pop8_stop (show stackSlot (s.advance 2) (s.advance 2).sp = false from h1)]
  rfl

/-- CALL stops where its push of the return address does (R151). -/
theorem exec_call_stop {da : Addr} {r : Refusal}
    (h : pushAddr (s.pc + 3#16) (s.advance 3) = .refused r) : exec (.call da) s = .refused r := by
  rw [exec_call, h, andThen_refused]

end

/-- Settles O22: the cycle stops as the first of its pushes that has no slot. -/
theorem interruptCycleNeedsStack : Obligations.InterruptCycleNeedsStack := by
  unfold Obligations.InterruptCycleNeedsStack
  intro n s hp
  have hp' : paramsWf (withdrawn n s).par = true := hp
  refine ⟨fun h1 => ?_, fun h1 h2 => ?_, fun h1 h2 h3 => ?_⟩
  · exact takeInterrupt_stop_pc (pushAddr_stop_low s.pc hp' h1)
  · exact takeInterrupt_stop_pc (pushAddr_stop_high s.pc hp' h1 h2)
  · exact takeInterrupt_stop_flags (pushAddr_next s.pc hp' h1 h2)
      (push8_stop_afterPushAddr _ s.pc hp' h1 h2 h3)

/-- Settles O51: each instruction stops as the first of its stack accesses that has no slot. -/
theorem stackOutsideGeneralRefused : Obligations.StackOutsideGeneralRefused := by
  unfold Obligations.StackOutsideGeneralRefused
  intro a da s hp
  have hp3 : paramsWf (s.advance 3).par = true := hp
  have hp1 : paramsWf (s.advance 1).par = true := hp
  rw [exec_ret, exec_iret]
  refine ⟨fun h1 => ⟨?call_low, ?push⟩, fun h1 h2 => ?call_high,
    fun h1 => ⟨?ret_high, ?iret_flags, ?pop⟩, fun h1 h2 => ⟨?ret_low, ?iret_high⟩,
    fun h1 h2 h3 => ?iret_low, fun hext w => ?external⟩
  case call_low => exact exec_call_stop (pushAddr_stop_low _ hp3 h1)
  case push => exact fun hr hspl hsph => exec_push_stop hp hspl hsph hr h1
  case call_high => exact exec_call_stop (pushAddr_stop_high _ hp3 h1 h2)
  case ret_high => exact popPc_stop_high (s := s.advance 1) h1
  case iret_flags => exact returnFromInterrupt_stop_flags (s := s.advance 1) h1
  case pop => exact fun hspl hsph => exec_pop_stop hspl hsph h1
  case ret_low => exact popPc_stop_low hp1 h1 h2
  case iret_high => exact returnFromInterrupt_stop_high hp1 h1 h2
  case iret_low => exact returnFromInterrupt_stop_low hp1 h1 h2 h3
  case external => rw [stackSlot, hext]; rfl

end Sys2Proof.Machine

/-! ### Encoding: decode and encode are inverse, and first bytes outside the opcode map are refused -/

namespace Sys2Proof

open Sys2Proof.Laws

/-- Every instruction's encoding has the form R83 gives it. -/
theorem encodedForm (i : Instr) : EncodedForm.Statement i := by
  cases i with
  | di => exact EncodedForm.di
  | ei => exact EncodedForm.ei
  | iret => exact EncodedForm.iret
  | clr dst => exact EncodedForm.clr dst
  | or dst im => exact EncodedForm.or dst im
  | and dst im => exact EncodedForm.and dst im
  | tm dst im => exact EncodedForm.tm dst im
  | ld dst im => exact EncodedForm.ld dst im
  | push src => exact EncodedForm.push src
  | pop dst => exact EncodedForm.pop dst
  | jr cc ra => exact EncodedForm.jr cc ra
  | call da => exact EncodedForm.call da
  | ret => exact EncodedForm.ret

section

variable {b0 : Byte} {bs rest : List Byte} {i : Instr} {op : Opcode}

/-- A first byte that selects no row is refused by name (R84). -/
theorem decode_of_findOpcode_none (h : findOpcode b0 = none) :
    decode (b0 :: bs) = .error (.opcodeOutsideSubset b0) := by
  simp [decode, h]

/-- Bytes decode to an instruction exactly when their first byte selects a row and the bytes after it
hold that row's operands (R80). -/
theorem decode_cons_eq_ok_iff {r : Instr × List Byte} :
    decode (b0 :: bs) = .ok r ↔ ∃ op, findOpcode b0 = some op ∧ takeOperands op b0 bs = some r := by
  cases hf : findOpcode b0 with
  | none => simp [decode_of_findOpcode_none hf]
  | some op => cases ht : takeOperands op b0 bs <;> simp [decode, hf, ht]

/-- The operand bytes of an encoding give the instruction back: JR's condition stands in the first
byte, CALL's address in two operand bytes, and every other operand in one byte of its own (R81). -/
theorem takeOperands_encode (h : encode i = b0 :: bs) :
    takeOperands (instrOpcode i) b0 (bs ++ rest) = some (i, rest) := by
  cases i with
  | jr cc ra =>
    cases h
    simp [instrOpcode, takeOperands]
  | call da =>
    cases h
    simp [instrOpcode, takeOperands]
  | _ => cases h; rfl

/-- Decoding the encoding of an instruction gives it back, whatever bytes follow. -/
theorem decode_encode (i : Instr) (rest : List Byte) : decode (encode i ++ rest) = .ok (i, rest) := by
  obtain ⟨-, b0, bs, henc, hrow⟩ := encodedForm i
  rw [henc, List.cons_append]
  exact decode_cons_eq_ok_iff.mpr ⟨_, hrow, takeOperands_encode henc⟩

/-- What a row's operands give is an instruction of that row, and the bytes read are the operand
bytes of its encoding (R80, R81). -/
theorem takeOperands_spec (h : takeOperands op b0 bs = some (i, rest)) :
    instrOpcode i = op ∧ bs = (encode i).tail ++ rest := by
  unfold takeOperands at h
  split at h <;> cases h <;> simp [instrOpcode, encode]

/-- The condition of a JR that the decoder reads is the one its first byte names (R80, R82). -/
theorem takeOperands_jr {cc : Cond} {ra : Byte} (h : takeOperands .jr b0 bs = some (.jr cc ra, rest)) :
    cc = condOfCode (b0.extractLsb' 4 4) := by
  cases bs with
  | nil => cases h
  | cons b bs => cases h; rfl

/-- The first byte of decoded bytes is the first byte of the instruction's encoding: a row other than
JR's has one opcode byte, and JR's condition is the one its first byte names (R83). -/
theorem encode_head_of_takeOperands (hrow : findOpcode b0 = some (instrOpcode i))
    (h : takeOperands (instrOpcode i) b0 bs = some (i, rest)) : (encode i).head? = some b0 := by
  obtain ⟨hdi, hei, hiret, hret, hclr, hor, hand, htm, hld, hpush, hpop, hcall⟩ := findOpcode_byte b0
  cases i with
  | di => rw [hdi hrow]; rfl
  | ei => rw [hei hrow]; rfl
  | iret => rw [hiret hrow]; rfl
  | clr dst => rw [hclr hrow]; rfl
  | or dst im => rw [hor hrow]; rfl
  | and dst im => rw [hand hrow]; rfl
  | tm dst im => rw [htm hrow]; rfl
  | ld dst im => rw [hld hrow]; rfl
  | push src => rw [hpush hrow]; rfl
  | pop dst => rw [hpop hrow]; rfl
  | jr cc ra =>
    rw [takeOperands_jr h]
    exact congrArg some (jrByte_of_row b0 hrow)
  | call da => rw [hcall hrow]; rfl
  | ret => rw [hret hrow]; rfl

/-- Bytes that decode to an instruction begin with its encoding, and the rest is what follows it. -/
theorem eq_encode_of_decode (h : decode bs = .ok (i, rest)) : bs = encode i ++ rest := by
  cases bs with
  | nil => cases h
  | cons b0 bs =>
    obtain ⟨op, hrow, htake⟩ := decode_cons_eq_ok_iff.mp h
    obtain ⟨rfl, htail⟩ := takeOperands_spec htake
    have hhead := encode_head_of_takeOperands hrow htake
    rw [htail, ← List.cons_append, List.cons_head?_tail hhead]

/-- A byte that begins no encoding selects no row of the opcode map (R84). -/
theorem findOpcode_eq_none (h : ∀ i : Instr, (encode i).head? ≠ some b0) : findOpcode b0 = none := by
  cases hrow : findOpcode b0 with
  | none => rfl
  | some op =>
    obtain ⟨i, hi⟩ := encode_of_findOpcode hrow
    exact absurd hi (h i)

/-- A word of the opcode table whose bytes begin with an instruction's encoding decodes to it. -/
theorem decodeTableWord_of_encode {nbits w : Nat} (h : tableBytes nbits w = encode i ++ rest) :
    decodeTableWord nbits w = some i := by
  rw [decodeTableWord, h, decode_encode]

/-- Of the 256 first bytes, 28 select a row: one each for twelve rows and sixteen for JR (R83). -/
theorem count_outside_opcodeMap :
    ((List.range 256).filter fun n => (findOpcode (BitVec.ofNat 8 n)).isNone).length = 228 := by
  rfl

end

end Sys2Proof

namespace Sys2Proof.Machine

section

variable {s : State}

/-- The CPU's step with no interrupt pending after the sample is the run of the instruction at PC
(R224, R270). -/
theorem step_eq_runInstruction (hcpu : nextTurn s = .cpu)
    (hp : interruptPending (sample (dropTurn s)) = false) :
    step s = runInstruction (sample (dropTurn s)) := by
  simp [step, hcpu, takeTurn, cpuStep, atBoundary, hp]

/-- The run of an instruction stops by name where the bytes at PC do not decode (R84). -/
theorem runInstruction_of_error {e : DecodeError} (h : decode (fetch s) = .error e) :
    runInstruction s = .refused (.undecodable e) := by
  simp [runInstruction, h]

end

/-- Settles O1: the first byte selects the instruction's row, and the row's operands are its own. -/
theorem decodeOfEncode : Obligations.DecodeOfEncode := by
  unfold Obligations.DecodeOfEncode
  exact decode_encode

/-- Settles O2: the row a first byte selects fixes that byte, JR's with its condition. -/
theorem encodeOfDecode : Obligations.EncodeOfDecode := by
  unfold Obligations.EncodeOfDecode
  exact fun _ _ _ => eq_encode_of_decode

/-- Settles O3, by O1's round trip: each word's bytes begin with the instruction's encoding. -/
theorem wordsDecodeAsTheMapSays : Obligations.WordsDecodeAsTheMapSays := by
  unfold Obligations.WordsDecodeAsTheMapSays
  and_intros <;> exact decodeTableWord_of_encode rfl

/-- Settles O4: a byte that begins no encoding selects no row, so decoder and step stop by name. -/
theorem opcodeOutsideSubsetRefused : Obligations.OpcodeOutsideSubsetRefused := by
  unfold Obligations.OpcodeOutsideSubsetRefused
  refine ⟨fun b0 rest h => ?decoder, fun s hcpu hp h => ?cpu, count_outside_opcodeMap,
    fun ra s => exec_jr s .f ra⟩
  case decoder => exact decode_of_findOpcode_none (findOpcode_eq_none h)
  case cpu =>
    rw [step_eq_runInstruction hcpu hp]
    apply runInstruction_of_error
    rw [fetch_sample, fetch_dropTurn]
    exact decode_of_findOpcode_none (findOpcode_eq_none h)

/-- Settles O5: each code names its condition by the table of R82, and each condition is defined by
its row's formula over the flag bits of R22. -/
theorem conditionCodesTestTheirFlags : Obligations.ConditionCodesTestTheirFlags := by
  unfold Obligations.ConditionCodesTestTheirFlags
  intro f
  and_intros <;> rfl

end Sys2Proof.Machine

/-! ### Interrupt control: DI, EI and IRET, and the frame of the instructions that touch no memory -/

namespace Sys2Proof.Machine

open Sys2Proof.Safety

/-- Each bit after the master enable is set (R101, R102). -/
theorem setBit7_bit (v : Byte) (k : Nat) :
    (setBit7 v).getLsbD k = (v.getLsbD k || k == 7) := by
  have hmask : 0x80#8 = BitVec.twoPow 8 7 := rfl
  rw [setBit7, hmask, BitVec.getLsbD_or, BitVec.getLsbD_twoPow]
  simp [beq_eq_decide, eq_comm (a := k)]

/-- Each bit after the master enable is cleared (R100). -/
theorem clearBit7_bit (v : Byte) (k : Nat) :
    (clearBit7 v).getLsbD k = (v.getLsbD k && k != 7) := by
  have hmask : 0x7F#8 = ~~~(BitVec.twoPow 8 7) := rfl
  rw [clearBit7, hmask, BitVec.getLsbD_and, BitVec.getLsbD_not, BitVec.getLsbD_twoPow]
  by_cases hk : k < 8
  · simp [hk, bne, beq_eq_decide, eq_comm (a := k)]
  · simp [BitVec.getLsbD_of_ge v k (by omega)]

/-- Settles O32: DI's next state is the model's own, and only bit 7 of IMR is cleared. -/
theorem diClearsMasterEnable : Obligations.DiClearsMasterEnable := by
  unfold Obligations.DiClearsMasterEnable
  exact fun s => ⟨clearBit7 s.imr, exec_di s, clearBit7_bit s.imr⟩

/-- Settles O33: EI's next state is the model's own, and only bit 7 of IMR is set. -/
theorem eiSetsMasterEnableAndIrqen : Obligations.EiSetsMasterEnableAndIrqen := by
  unfold Obligations.EiSetsMasterEnableAndIrqen
  exact fun s => ⟨setBit7 s.imr, exec_ei s, setBit7_bit s.imr⟩

/-- What the three pops of a return from interrupt leave, PC apart (R102). -/
def afterPopFrame (s : State) : State :=
  ((afterPopFlags s).setSp (s.sp + 2#16)).setSp (s.sp + 3#16)

section

variable {s : State}

/-- A return from interrupt in terms of its pops (R102). -/
theorem returnFromInterrupt_next_afterPopFrame (hp : paramsWf s.par = true)
    (h1 : stackSlot s s.sp = true) (h2 : stackSlot s (s.sp + 1#16) = true)
    (h3 : stackSlot s (s.sp + 2#16) = true) :
    returnFromInterrupt s = .next { afterPopFrame s with
      pc := join16 (stackByte s (s.sp + 1#16)) (stackByte s (s.sp + 2#16)),
      imr := setBit7 s.imr } :=
  returnFromInterrupt_next hp h1 h2 h3

theorem quiet_afterPopFrame (s : State) : Quiet s (afterPopFrame s) :=
  (((quiet_setSp s _).trans (quiet_setFlags _ _)).trans (quiet_setSp _ _)).trans (quiet_setSp _ _)

/-- The pops of PC leave the FLAGS popped before them (R102). -/
theorem flags_afterPopFrame (hp : paramsWf s.par = true) :
    (afterPopFrame s).flags = stackByte s s.sp := by
  have hp' : paramsWf (afterPopFlags s).par = true := by simpa using hp
  rw [afterPopFrame, flags_setSp _ _ (by simpa using hp'), flags_setSp _ _ hp', afterPopFlags,
    State.flags_setFlags]

/-- After the three pops SP is three more (R102). -/
theorem sp_afterPopFrame (hp : paramsWf s.par = true) (h1 : stackSlot s s.sp = true)
    (h2 : stackSlot s (s.sp + 1#16) = true) (h3 : stackSlot s (s.sp + 2#16) = true) :
    (afterPopFrame s).sp = s.sp + 3#16 := by
  have hsp := sp_afterPopFlags hp h1
  have hpop := sp_popPc (s := afterPopFlags s) (by simpa using hp) (by simpa [hsp] using h2)
    (by simpa [hsp, add_one_add_one] using h3)
  have hthree : s.sp + 1#16 + 2#16 = s.sp + 3#16 := by bv_omega
  rwa [hsp, add_one_add_one, hthree] at hpop

/-- A return from interrupt goes on only where its three bytes are stack slots (R64, R102). -/
theorem returnFromInterrupt_slots {t : State} (hp : paramsWf s.par = true)
    (h : returnFromInterrupt s = .next t) :
    stackSlot s s.sp = true ∧ stackSlot s (s.sp + 1#16) = true ∧
      stackSlot s (s.sp + 2#16) = true := by
  obtain ⟨f, hflags, hrest⟩ := andThen_eq_next h
  obtain ⟨u, hpc, -⟩ := andThen_eq_next hrest
  obtain ⟨h1, rfl⟩ := pop8_cases hflags
  have hpc' : popPc (afterPopFlags s) = .next u := hpc
  have hslots := popPc_cases (by simpa using hp) hpc'
  rw [sp_afterPopFlags hp h1, add_one_add_one, stackSlot_afterPopFlags,
    stackSlot_afterPopFlags] at hslots
  exact ⟨h1, hslots⟩

end

/-- Settles O34: IRET is the return from interrupt one byte on, whose pops go on exactly where the
frame is stack memory. -/
theorem iretPopsFlagsAndPc : Obligations.IretPopsFlagsAndPc := by
  unfold Obligations.IretPopsFlagsAndPc
  intro s hp
  rw [exec_iret]
  refine ⟨fun h1 h2 h3 => ?completes, fun ⟨_, ht⟩ => ?only⟩
  case completes =>
    have hnext := returnFromInterrupt_next_afterPopFrame (s := s.advance 1) hp h1 h2 h3
    have hflags := flags_afterPopFrame (s := s.advance 1) hp
    have hsp := sp_afterPopFrame (s := s.advance 1) hp h1 h2 h3
    have hquiet := quiet_afterPopFrame (s.advance 1)
    exact ⟨_, hnext, hflags, rfl, hsp, setBit7_bit s.imr, hquiet.irq, hquiet.ipr, hquiet.irqen⟩
  case only => exact returnFromInterrupt_slots (s := s.advance 1) hp ht

/-- DI, EI and JR replace PC, the master enable and `IRQEN`, nothing else (R100, R101, R150). -/
theorem exec_control_cases {cc : Cond} {ra : Byte} {s t : State}
    (h : exec .di s = .next t ∨ exec .ei s = .next t ∨ exec (.jr cc ra) s = .next t) :
    ∃ w m e, t = { s with pc := w, imr := m, irqen := e } ∧
      m.extractLsb' 0 7 = s.imr.extractLsb' 0 7 := by
  obtain h | h | h := h
  · rw [exec_di] at h
    cases h
    exact ⟨_, _, _, rfl, clearBit7_low s.imr⟩
  · rw [exec_ei] at h
    cases h
    exact ⟨_, _, _, rfl, setBit7_low s.imr⟩
  · rw [exec_jr] at h
    cases h
    exact ⟨_, _, _, rfl, rfl⟩

/-- Settles O58: DI, EI and JR replace three fields, and of these DI keeps `IRQEN`, JR `IRQEN` and
IMR. -/
theorem controlFrame : Obligations.ControlFrame := by
  unfold Obligations.ControlFrame
  intro cc ra s t
  refine ⟨fun h => ?frame, fun h => ?di, fun h => ?jr⟩
  case frame =>
    obtain ⟨w, m, e, rfl, hm⟩ := exec_control_cases h
    exact ⟨hm, rfl, rfl, rfl, fun _ _ => rfl, fun _ _ => rfl, ⟨rfl, fun _ => rfl, rfl⟩, rfl⟩
  case di =>
    rw [exec_di] at h
    cases h
    rfl
  case jr =>
    rw [exec_jr] at h
    cases h
    exact ⟨rfl, rfl⟩

end Sys2Proof.Machine

/-! ### Register logic: CLR, OR, AND, TM, LD, PUSH and POP, and their frames -/

namespace Sys2Proof.Machine

open Sys2Proof.Safety

/-- Settles O31: the bits of the flag byte, one by one. -/
theorem logicFlagsBits : Obligations.LogicFlagsBits := by
  unfold Obligations.LogicFlagsBits
  intro r f
  refine ⟨logicFlags_bit r f 6, logicFlags_bit r f 5, logicFlags_bit r f 4, fun k hk => ?_⟩
  simp only [List.mem_cons, List.not_mem_nil, or_false, not_or] at hk
  obtain ⟨h4, h5, h6⟩ := hk
  rw [logicFlags_bit, if_neg h6, if_neg h5, if_neg h4]

section

variable {s : State} {dst src : Byte}

/-- An operation that answers `t` where `c` holds and goes on nowhere else completes exactly where
`c` holds. -/
theorem completes_exactly {o : Res State} {c : Bool} {t : State} (hnext : c = true → o = .next t)
    (honly : ∀ u, o = .next u → c = true) :
    (c = true → o = .next t) ∧ (c = false → ¬ Completes o) :=
  ⟨hnext, fun hc ⟨u, hu⟩ => Bool.false_ne_true (hc.symm.trans (honly u hu))⟩

@[simp] theorem canWrite_setSp (s : State) (w : Addr) (a v : Byte) :
    canWrite (s.setSp w) a v = canWrite s a v := by simp [canWrite]

/-- A write completes exactly where it is legal (R27). -/
theorem writeReg_exactly (a v : Byte) (s : State) :
    (canWrite s a v = true → writeReg a v s = .next (afterWrite s a v)) ∧
    (canWrite s a v = false → ¬ Completes (writeReg a v s)) :=
  completes_exactly writeReg_next fun _ h => (writeReg_cases h).1

/-- Read, combine, write back completes exactly where the write is legal, as its read then is too
(R121, R122). -/
theorem combineInto_exactly (f : Byte → Byte) (a : Byte) (s : State) :
    (canWrite s a (f (regValue s a)) = true → combineInto f a s =
      .next (afterLogic (afterWrite (afterRead s a) a (f (regValue s a))) (f (regValue s a)))) ∧
    (canWrite s a (f (regValue s a)) = false → ¬ Completes (combineInto f a s)) :=
  completes_exactly combineInto_next fun _ h => (combineInto_cases h).1

/-- Read and test completes exactly where the read is legal (R123). -/
theorem combineTest_exactly (f : Byte → Byte) (a : Byte) (s : State) :
    (canRead s a = true → combineTest f a s =
      .next (afterLogic (afterRead s a) (f (regValue s a)))) ∧
    (canRead s a = false → ¬ Completes (combineTest f a s)) :=
  completes_exactly combineTest_next fun _ h => (combineTest_cases h).1

/-- The stack pointer's registers are SPL and SPH, with either stack (R125, R126). -/
theorem isStackPointer_iff {p : Params} {a : Byte} :
    isStackPointer p a = true ↔ a = p.splAddr ∨ a = p.sphAddr := by simp [isStackPointer]

/-- PUSH's read leaves the parameters. -/
theorem paramsWf_push_operand (src : Byte) (hp : paramsWf s.par = true) :
    paramsWf (afterRead (s.advance 2) src).par = true := by simpa using hp

/-- PUSH's read leaves the byte below SP a stack slot. -/
theorem stackSlot_push_operand (src : Byte) (hslot : stackSlot s (s.sp - 1#16) = true) :
    stackSlot (afterRead (s.advance 2) src) ((afterRead (s.advance 2) src).sp - 1#16) = true := by
  simpa using hslot

/-- PUSH where it goes on: the value read is pushed (R125). -/
theorem exec_push_next (hp : paramsWf s.par = true) (hspl : src ≠ s.par.splAddr)
    (hsph : src ≠ s.par.sphAddr) (hr : canRead s src = true)
    (hslot : stackSlot s (s.sp - 1#16) = true) :
    exec (.push src) s = .next (afterPush (afterRead (s.advance 2) src) (regValue s src)) := by
  rw [exec_push_readable hspl hsph hr]
  exact push8_next _ (paramsWf_push_operand src hp) (stackSlot_push_operand src hslot)

/-- PUSH goes on only for a readable register, not SP's own, into a stack slot (R64, R125). -/
theorem exec_push_cases {t : State} (hp : paramsWf s.par = true) (h : exec (.push src) s = .next t) :
    src ≠ s.par.splAddr ∧ src ≠ s.par.sphAddr ∧ canRead s src = true ∧
      stackSlot s (s.sp - 1#16) = true ∧
      t = afterPush (afterRead (s.advance 2) src) (regValue s src) := by
  rw [exec_push] at h
  split_ifs at h with hown
  rw [isStackPointer_iff, not_or] at hown
  obtain ⟨hspl, hsph⟩ := hown
  obtain ⟨r, hread, hpush⟩ := andThen_eq_next h
  obtain ⟨hr, rfl⟩ := readReg_cases hread
  obtain ⟨hslot, rfl⟩ := push8_cases (paramsWf_push_operand src hp) hpush
  exact ⟨hspl, hsph, hr, by simpa using hslot, rfl⟩

/-- POP where it goes on: the byte at SP is written to the destination (R126). -/
theorem exec_pop_next (hspl : dst ≠ s.par.splAddr) (hsph : dst ≠ s.par.sphAddr)
    (hslot : stackSlot s s.sp = true) (hw : canWrite s dst (stackByte s s.sp) = true) :
    exec (.pop dst) s =
      .next (afterWrite ((s.advance 2).setSp (s.sp + 1#16)) dst (stackByte s s.sp)) := by
  rw [exec_pop_slot hspl hsph hslot]
  exact writeReg_next (by simpa using hw)

/-- POP goes on only from a stack slot, into a register that takes the byte and is not SP's own
(R64, R126). -/
theorem exec_pop_cases {t : State} (h : exec (.pop dst) s = .next t) :
    dst ≠ s.par.splAddr ∧ dst ≠ s.par.sphAddr ∧ stackSlot s s.sp = true ∧
      canWrite s dst (stackByte s s.sp) = true ∧
      t = afterWrite ((s.advance 2).setSp (s.sp + 1#16)) dst (stackByte s s.sp) := by
  rw [exec_pop] at h
  split_ifs at h with hown
  rw [isStackPointer_iff, not_or] at hown
  obtain ⟨hspl, hsph⟩ := hown
  obtain ⟨r, hpop, hwrite⟩ := andThen_eq_next h
  obtain ⟨hslot, rfl⟩ := pop8_cases hpop
  obtain ⟨hw, rfl⟩ := writeReg_cases hwrite
  exact ⟨hspl, hsph, hslot, by simpa using hw, rfl⟩

end

/-- What the frames say of an operation: IRQ, IMR and IPR but those whose address is in `ir`, the
register file but `rf`, data memory but `dm`, the device and the latches are as before. -/
structure Framed (s t : State) (ir rf : List Byte) (dm : List Nat) : Prop where
  registers : InterruptRegistersKept s t ir
  rf : RfKept s t rf
  dm : DmKept s t dm
  device : DeviceKept s t
  latches : LatchesKept s t

section

variable {s t u : State} {ir rf : List Byte} {dm : List Nat}

theorem Framed.trans (h : Framed s t ir rf dm) (g : Framed t u ir rf dm) : Framed s u ir rf dm := by
  obtain ⟨⟨hirq, himr, hipr⟩, hrf, hdm, ⟨hpar, hpm, henv⟩, hreq, hirqen⟩ := h
  obtain ⟨⟨girq, gimr, gipr⟩, grf, gdm, ⟨gpar, gpm, genv⟩, greq, girqen⟩ := g
  rw [hpar] at girq gimr gipr
  exact {
    registers := ⟨fun n => (girq n).trans (hirq n), fun n => (gimr n).trans (himr n),
      fun n => (gipr n).trans (hipr n)⟩
    rf := fun a n => (grf a n).trans (hrf a n)
    dm := fun a n => (gdm a n).trans (hdm a n)
    device := ⟨gpar.trans hpar, fun a => (gpm a).trans (hpm a), genv.trans henv⟩
    latches := ⟨greq.trans hreq, girqen.trans hirqen⟩ }

theorem Framed.par_eq (h : Framed s t ir rf dm) : t.par = s.par := h.device.1

theorem Framed.flags_eq (h : Framed s t ir rf dm) (hflags : s.par.flagsAddr ∉ rf) :
    t.flags = s.flags := by
  rw [State.flags, h.par_eq, h.rf _ hflags, State.flags]

theorem Framed.sp_eq (h : Framed s t ir rf dm) (hspl : s.par.splAddr ∉ rf)
    (hsph : s.par.sphAddr ∉ rf) : t.sp = s.sp := by
  rw [State.sp, h.par_eq, h.rf _ hspl, h.rf _ hsph, State.sp]

/-- An operation that writes none of IRQ, IMR and IPR is framed by what it leaves of the memories. -/
theorem Quiet.framed (q : Quiet s t) (hrf : RfKept s t rf) (hdm : DmKept s t dm) :
    Framed s t ir rf dm where
  registers := ⟨fun _ => q.irq, fun _ => q.imr, fun _ => q.ipr⟩
  rf := hrf
  dm := hdm
  device := ⟨q.par, fun a => congrArg (·.read a) q.pm, q.env⟩
  latches := ⟨q.req, q.irqen⟩

theorem framed_advance (s : State) (n : Nat) : Framed s (s.advance n) ir rf dm :=
  (quiet_advance s n).framed (fun _ _ => rfl) (fun _ _ => rfl)

/-- A read touches the draw counter alone (R26). -/
theorem framed_afterRead (s : State) (a : Byte) : Framed s (afterRead s a) ir rf dm := by
  have q := quiet_afterRead s a
  obtain ⟨k, hk⟩ := afterRead_frame s a
  rw [hk] at q ⊢
  exact q.framed (fun _ _ => rfl) (fun _ _ => rfl)

/-- A write touches its own register, and the register file only where that is plain storage (R27). -/
theorem framed_afterWrite (s : State) {a : Byte} (v : Byte) (hir : a ∈ ir)
    (hrf : isInterruptRegister s.par a = false → a ∈ rf) : Framed s (afterWrite s a v) ir rf dm := by
  obtain ⟨q, m, p, f, hw, hq, hm, hp, hother, hplain⟩ := afterWrite_frame s a v
  have hkept : ∀ b, b ∉ rf → f.read b.toNat = s.rf.read b.toNat := by
    intro b hb
    cases hi : isInterruptRegister s.par a with
    | true => rw [hplain hi]
    | false => exact hother b fun hba => hb (hba ▸ hrf hi)
  rw [hw]
  exact {
    registers := ⟨fun n => hq fun e => n (e ▸ hir), fun n => hm fun e => n (e ▸ hir),
      fun n => hp fun e => n (e ▸ hir)⟩
    rf := hkept
    dm := fun _ _ => rfl
    device := ⟨rfl, fun _ => rfl, rfl⟩
    latches := ⟨rfl, rfl⟩ }

/-- `LogicFlags` touches FLAGS alone (R127). -/
theorem framed_afterLogic (s : State) (r : Byte) (hrf : s.par.flagsAddr ∈ rf) :
    Framed s (afterLogic s r) ir rf dm :=
  (quiet_withLogicFlags s r).framed
    (fun _ ha => State.readRf_writeRf_other _ _ fun e => ha (e ▸ hrf)) (fun _ _ => rfl)

/-- A change of SP touches SP's own registers alone (R23). -/
theorem framed_setSp (s : State) (w : Addr) (hrf : spRegisters s.par ⊆ rf) :
    Framed s (s.setSp w) ir rf dm :=
  (quiet_setSp s w).framed (fun _ ha => readRf_setSp_other fun h => ha (hrf h))
    (fun a _ => congrArg (·.read a) (State.setSp_dm s w))

/-- A push touches SP's own registers and the byte at the new SP (R65). -/
theorem framed_afterPush (v : Byte) (hp : paramsWf s.par = true)
    (hslot : stackSlot s (s.sp - 1#16) = true)
    (hrf : spRegisters s.par ++ stackRf s [s.sp - 1#16] ⊆ rf)
    (hdm : stackDm s [s.sp - 1#16] ⊆ dm) : Framed s (afterPush s v) ir rf dm :=
  (quiet_push8 (push8_next v hp hslot)).framed
    (fun _ ha => readRf_afterPush_other v (fun h => ha (hrf (List.mem_append_left _ h)))
      fun h => ha (hrf (List.mem_append_right _ h)))
    (fun _ ha => dm_afterPush_other v fun h => ha (hdm h))

/-- The flags OR, AND and TM do not write stay (R127). -/
theorem otherFlagsKept_afterLogic (r : Byte) (h : t.flags = s.flags) :
    OtherFlagsKept s (afterLogic t r) := by
  intro k hk
  obtain ⟨-, -, -, hother⟩ := logicFlagsBits r t.flags
  rw [← withLogicFlags_eq, State.withLogicFlags, State.flags_setFlags, hother k hk, h]

/-- A write to another register leaves FLAGS. -/
theorem flags_afterWrite_other {a : Byte} (v : Byte) (h : a ≠ s.par.flagsAddr) :
    (afterWrite s a v).flags = s.flags :=
  (framed_afterWrite (ir := [a]) (rf := [a]) (dm := []) s v (by simp) (by simp)).flags_eq
    (by simpa using h.symm)

/-- A write to another register leaves SP. -/
theorem sp_afterWrite_other {a : Byte} (v : Byte) (hspl : a ≠ s.par.splAddr)
    (hsph : a ≠ s.par.sphAddr) : (afterWrite s a v).sp = s.sp :=
  (framed_afterWrite (ir := [a]) (rf := [a]) (dm := []) s v (by simp) (by simp)).sp_eq
    (by simpa using hspl.symm) (by simpa using hsph.symm)

/-- A read leaves FLAGS. -/
@[simp] theorem flags_afterRead (s : State) (a : Byte) : (afterRead s a).flags = s.flags :=
  (framed_afterRead (ir := []) (rf := []) (dm := []) s a).flags_eq (by simp)

@[simp] theorem afterWrite_pc (s : State) (a v : Byte) : (afterWrite s a v).pc = s.pc := by
  obtain ⟨q, m, p, f, hw, -⟩ := afterWrite_frame s a v
  rw [hw]

@[simp] theorem afterWrite_draws (s : State) (a v : Byte) : (afterWrite s a v).draws = s.draws := by
  obtain ⟨q, m, p, f, hw, -⟩ := afterWrite_frame s a v
  rw [hw]

@[simp] theorem afterRead_pc (s : State) (a : Byte) : (afterRead s a).pc = s.pc := by
  obtain ⟨k, hk⟩ := afterRead_frame s a
  rw [hk]

/-- What a write leaves of IRQ, IMR and IPR depends on no more of the state than an operation that
writes none of them leaves as it was (R31, R37, R42). -/
theorem afterWrite_registers_of_quiet (q : Quiet s t) (a v : Byte) :
    (afterWrite t a v).irq = (afterWrite s a v).irq ∧
    (afterWrite t a v).imr = (afterWrite s a v).imr ∧
    (afterWrite t a v).ipr = (afterWrite s a v).ipr := by
  unfold afterWrite
  rw [q.par, q.irq, q.irqen, q.imr, q.ipr]
  split_ifs <;> exact ⟨rfl, rfl, rfl⟩

/-- A write to plain storage reads back (R27). -/
theorem readRf_afterWrite_plain {a : Byte} (v : Byte) (h : isPlain s.par a = true) :
    (afterWrite s a v).readRf a = v := by
  simp only [isPlain, isInterruptRegister, Bool.and_eq_true, Bool.not_eq_true',
    Bool.or_eq_false_iff, beq_eq_false_iff_ne] at h
  obtain ⟨⟨⟨⟨hirq, himr⟩, hipr⟩, -⟩, -⟩ := h
  rw [afterWrite, if_neg hirq, if_neg himr, if_neg hipr]
  exact State.readRf_writeRf_same s a v

end

/-- Settles O35: CLR is a write of 00H two bytes on. -/
theorem clrWritesZero : Obligations.ClrWritesZero := by
  unfold Obligations.ClrWritesZero
  intro dst s
  rw [exec_clr]
  exact writeReg_exactly dst 0x00#8 (s.advance 2)

/-- Settles O36: LD is a write of the immediate three bytes on. -/
theorem ldWritesImmediate : Obligations.LdWritesImmediate := by
  unfold Obligations.LdWritesImmediate
  intro dst im s
  rw [exec_ld]
  exact writeReg_exactly dst im (s.advance 3)

/-- Settles O37: OR reads, writes and sets the flags where its write is legal, which its read then
is too. -/
theorem orSetsBits : Obligations.OrSetsBits := by
  unfold Obligations.OrSetsBits
  intro dst im s r
  rw [exec_or]
  exact combineInto_exactly (fun t => t ||| im) dst (s.advance 3)

/-- Settles O38: AND reads, writes and sets the flags where its write is legal, which its read then
is too. -/
theorem andClearsBits : Obligations.AndClearsBits := by
  unfold Obligations.AndClearsBits
  intro dst im s r
  rw [exec_and]
  exact combineInto_exactly (fun t => t &&& im) dst (s.advance 3)

/-- Settles O39: TM reads and sets the flags where its read is legal. -/
theorem tmSetsFlagsOnly : Obligations.TmSetsFlagsOnly := by
  unfold Obligations.TmSetsFlagsOnly
  intro dst im s
  rw [exec_tm]
  exact combineTest_exactly (fun t => t &&& im) dst (s.advance 3)

/-- Settles O40: PUSH goes on exactly as its read and its push do. -/
theorem pushStoresRegister : Obligations.PushStoresRegister := by
  unfold Obligations.PushStoresRegister
  intro src s hp
  refine ⟨fun hspl hsph hr hslot => ?completes, fun ⟨_, ht⟩ => ?only⟩
  case completes =>
    have hp' := paramsWf_push_operand src hp
    have hslot' := stackSlot_push_operand src hslot
    refine ⟨_, exec_push_next hp hspl hsph hr hslot, ?sp, ?byte, ?pc, ?flags⟩
    case sp => simp [sp_afterPush _ hp' hslot']
    case byte => rw [sp_afterPush _ hp' hslot', stackByte_afterPush_same]
    case pc => simp
    case flags => simp [flags_afterPush _ hp' hslot']
  case only =>
    obtain ⟨hspl, hsph, hr, hslot, -⟩ := exec_push_cases hp ht
    exact ⟨hspl, hsph, hr, hslot⟩

/-- Settles O41: POP goes on exactly as its pop and its write do. -/
theorem popLoadsRegister : Obligations.PopLoadsRegister := by
  unfold Obligations.PopLoadsRegister
  intro dst s hp
  refine ⟨fun hspl hsph hslot hw => ?completes, fun ⟨_, ht⟩ => ?only⟩
  case completes =>
    have q : Quiet s ((s.advance 2).setSp (s.sp + 1#16)) :=
      (quiet_advance s 2).trans (quiet_setSp _ _)
    obtain ⟨hirq, himr, hipr⟩ := afterWrite_registers_of_quiet q dst (stackByte s s.sp)
    refine ⟨_, exec_pop_next hspl hsph hslot hw, ?sp, ?pc, hirq, himr, hipr,
      fun hplain => ?plain, fun hflags => ?flags⟩
    case sp =>
      rw [sp_afterWrite_other _ (by simpa using hspl) (by simpa using hsph)]
      exact sp_pop (s := s.advance 2) hp hslot
    case pc => simp
    case plain => exact readRf_afterWrite_plain _ (by simpa using hplain)
    case flags =>
      rw [flags_afterWrite_other _ (by simpa using hflags)]
      exact flags_setSp (s.advance 2) _ hp
  case only =>
    obtain ⟨hspl, hsph, hslot, hw, -⟩ := exec_pop_cases ht
    exact ⟨hspl, hsph, hslot, hw⟩

/-- CLR and LD are one write after PC has moved (R120, R124). -/
theorem exec_clear_load_cases {dst im : Byte} {s t : State}
    (h : exec (.clr dst) s = .next t ∨ exec (.ld dst im) s = .next t) :
    ∃ n v, t = afterWrite (s.advance n) dst v := by
  obtain h | h := h
  · rw [exec_clr] at h
    exact ⟨_, _, (writeReg_cases h).2⟩
  · rw [exec_ld] at h
    exact ⟨_, _, (writeReg_cases h).2⟩

/-- OR and AND are one read, one write and the flags after PC has moved (R121, R122). -/
theorem exec_logic_cases {dst im : Byte} {s t : State}
    (h : exec (.or dst im) s = .next t ∨ exec (.and dst im) s = .next t) :
    ∃ r, t = afterLogic (afterWrite (afterRead (s.advance 3) dst) dst r) r := by
  obtain h | h := h
  · rw [exec_or] at h
    exact ⟨_, (combineInto_cases h).2⟩
  · rw [exec_and] at h
    exact ⟨_, (combineInto_cases h).2⟩

/-- Settles O52, by the frames of the move of PC and of the write. -/
theorem clearAndLoadFrame : Obligations.ClearAndLoadFrame := by
  unfold Obligations.ClearAndLoadFrame
  intro dst im s t h
  obtain ⟨n, v, rfl⟩ := exec_clear_load_cases h
  have framed : ∀ rf, (isInterruptRegister s.par dst = false → dst ∈ rf) →
      Framed s (afterWrite (s.advance n) dst v) [dst] rf [] := fun rf hrf =>
    (framed_advance s n).trans (framed_afterWrite _ v (by simp) hrf)
  obtain ⟨hregs, hrf, hdm, hdevice, hlatches⟩ := framed [dst] (by simp)
  exact ⟨hregs, hrf, fun hi => (framed [] (by simp [hi])).rf, hdm, hdevice, hlatches, by simp⟩

/-- Settles O53, by the frames of the read, the write and the flag update. -/
theorem logicFrame : Obligations.LogicFrame := by
  unfold Obligations.LogicFrame
  intro dst im s t h
  obtain ⟨r, rfl⟩ := exec_logic_cases h
  have written : ∀ rf, (isInterruptRegister s.par dst = false → dst ∈ rf) →
      Framed s (afterWrite (afterRead (s.advance 3) dst) dst r) [dst] rf [] := fun rf hrf =>
    ((framed_advance s 3).trans (framed_afterRead _ dst)).trans
      (framed_afterWrite _ r (by simp) (by simpa using hrf))
  have framed : ∀ rf, (isInterruptRegister s.par dst = false → dst ∈ rf) → s.par.flagsAddr ∈ rf →
      Framed s (afterLogic (afterWrite (afterRead (s.advance 3) dst) dst r) r) [dst] rf [] :=
    fun rf hrf hflags => (written rf hrf).trans
      (framed_afterLogic _ r (by rw [(written rf hrf).par_eq]; exact hflags))
  obtain ⟨hregs, hrf, hdm, hdevice, hlatches⟩ := framed [dst, s.par.flagsAddr] (by simp) (by simp)
  refine ⟨hregs, hrf, fun hi => (framed [s.par.flagsAddr] (by simp [hi]) (by simp)).rf,
    fun hflags => ?_, hdm, hdevice, hlatches⟩
  exact otherFlagsKept_afterLogic r ((written [dst] (by simp)).flags_eq (by simpa using hflags.symm))

/-- Settles O54, by the frames of the read and the flag update. -/
theorem testFrame : Obligations.TestFrame := by
  unfold Obligations.TestFrame
  intro dst im s t h
  rw [exec_tm] at h
  obtain ⟨-, rfl⟩ := combineTest_cases h
  have hread : ∀ rf, Framed s (afterRead (s.advance 3) dst) [] rf [] := fun rf =>
    (framed_advance s 3).trans (framed_afterRead _ dst)
  obtain ⟨hregs, hrf, hdm, hdevice, hlatches⟩ := (hread [s.par.flagsAddr]).trans
    (framed_afterLogic _ (regValue (s.advance 3) dst &&& im) (by simp))
  exact ⟨hregs, hrf, otherFlagsKept_afterLogic _ ((hread []).flags_eq (by simp)), hdm, hdevice,
    hlatches⟩

/-- Settles O55, by the frames of the read and the push. -/
theorem pushFrame : Obligations.PushFrame := by
  unfold Obligations.PushFrame
  intro src s t hp h
  obtain ⟨hspl, hsph, hr, hslot, rfl⟩ := exec_push_cases hp h
  have hp' := paramsWf_push_operand src hp
  have hslot' := stackSlot_push_operand src hslot
  obtain ⟨hregs, hrf, hdm, hdevice, hlatches⟩ :=
    ((framed_advance s 2).trans (framed_afterRead _ src)).trans
      (framed_afterPush (ir := []) (rf := spRegisters s.par ++ stackRf s [s.sp - 1#16])
        (dm := stackDm s [s.sp - 1#16]) (regValue s src) hp' hslot'
        (by simp [stackRf]) (by simp [stackDm]))
  exact ⟨hregs, by simp [flags_afterPush _ hp' hslot'], hrf, hdm, hdevice, hlatches⟩

/-- Settles O56, by the frames of the pop and the write. -/
theorem popFrame : Obligations.PopFrame := by
  unfold Obligations.PopFrame
  intro dst s t hp h
  obtain ⟨hspl, hsph, hslot, hw, rfl⟩ := exec_pop_cases h
  have framed : ∀ rf, (isInterruptRegister s.par dst = false → dst ∈ rf) →
      spRegisters s.par ⊆ rf →
      Framed s (afterWrite ((s.advance 2).setSp (s.sp + 1#16)) dst (stackByte s s.sp)) [dst] rf [] :=
    fun rf hrf hsp => ((framed_advance s 2).trans (framed_setSp _ _ hsp)).trans
      (framed_afterWrite _ _ (by simp) (by simpa using hrf))
  obtain ⟨hregs, hrf, hdm, hdevice, hlatches⟩ := framed (dst :: spRegisters s.par) (by simp) (by simp)
  refine ⟨hregs, hrf, fun hi => (framed (spRegisters s.par) (by simp [hi]) (by simp)).rf,
    fun hflags => ?_, hdm, hdevice, hlatches, by simp⟩
  rw [flags_afterWrite_other _ (by simpa using hflags)]
  exact flags_setSp (s.advance 2) _ hp

/-- Settles O50: SPL and SPH are the stack pointer, which PUSH and POP refuse first. -/
theorem stackPointerNotPushedOrPopped : Obligations.StackPointerNotPushedOrPopped := by
  unfold Obligations.StackPointerNotPushedOrPopped
  intro s
  have hspl : isStackPointer s.par s.par.splAddr = true := isStackPointer_iff.mpr (.inl rfl)
  have hsph : isStackPointer s.par s.par.sphAddr = true := isStackPointer_iff.mpr (.inr rfl)
  simp only [exec_push, exec_pop, hspl, hsph, if_true, and_self]

end Sys2Proof.Machine

/-! ### Control transfer: JR, CALL and RET, and the frames of the calls and returns -/

namespace Sys2Proof.Machine

open Sys2Proof.Safety

/-- What CALL leaves where it goes on (R151). -/
def afterCall (da : Addr) (s : State) : State :=
  { afterPushAddr (s.advance 3) (s.pc + 3#16) with pc := da }

/-- What the two pops of a program address leave, PC apart (R65). -/
def afterPopPc (s : State) : State := (s.setSp (s.sp + 1#16)).setSp (s.sp + 2#16)

/-- What RET leaves where it goes on (R152). -/
def afterRet (s : State) : State :=
  { afterPopPc (s.advance 1) with pc := join16 (stackByte s s.sp) (stackByte s (s.sp + 1#16)) }

/-- What IRET leaves where it goes on (R102). -/
def afterIret (s : State) : State :=
  { afterPopFrame (s.advance 1) with
    pc := join16 (stackByte s (s.sp + 1#16)) (stackByte s (s.sp + 2#16))
    imr := setBit7 s.imr }

section

variable {s t : State} {da : Addr}

theorem exec_call_next (hp : paramsWf s.par = true) (h1 : stackSlot s (s.sp - 1#16) = true)
    (h2 : stackSlot s (s.sp - 2#16) = true) : exec (.call da) s = .next (afterCall da s) := by
  rw [exec_call, pushAddr_next (s := s.advance 3) _ hp h1 h2, andThen_next, afterCall]

/-- CALL goes on only where the two bytes below SP are stack slots (R64, R151). -/
theorem exec_call_cases (hp : paramsWf s.par = true) (h : exec (.call da) s = .next t) :
    stackSlot s (s.sp - 1#16) = true ∧ stackSlot s (s.sp - 2#16) = true ∧ t = afterCall da s := by
  rw [exec_call] at h
  obtain ⟨u, hpush, hnext⟩ := andThen_eq_next h
  obtain ⟨h1, h2, rfl⟩ := pushAddr_cases (s := s.advance 3) hp hpush
  cases hnext
  exact ⟨h1, h2, rfl⟩

theorem exec_ret_next (hp : paramsWf s.par = true) (h1 : stackSlot s s.sp = true)
    (h2 : stackSlot s (s.sp + 1#16) = true) : exec .ret s = .next (afterRet s) :=
  popPc_next (s := s.advance 1) hp h1 h2

/-- RET goes on only where the two bytes at SP are stack slots (R64, R152). -/
theorem exec_ret_cases (hp : paramsWf s.par = true) (h : exec .ret s = .next t) :
    stackSlot s s.sp = true ∧ stackSlot s (s.sp + 1#16) = true ∧ t = afterRet s := by
  obtain ⟨h1, h2⟩ := popPc_cases (s := s.advance 1) hp h
  rw [exec_ret_next hp h1 h2] at h
  cases h
  exact ⟨h1, h2, rfl⟩

/-- Where IRET goes on, its pops are done and the master enable is set (R102). -/
theorem exec_iret_cases (hp : paramsWf s.par = true) (h : exec .iret s = .next t) :
    t = afterIret s := by
  obtain ⟨h1, h2, h3⟩ := returnFromInterrupt_slots (s := s.advance 1) hp h
  rw [exec_iret, returnFromInterrupt_next_afterPopFrame (s := s.advance 1) hp h1 h2 h3] at h
  cases h
  rfl

/-- Which addresses are stack slots is the parameters' alone (R64). -/
theorem stackSlot_eq_of_par_eq (h : t.par = s.par) (a : Addr) : stackSlot t a = stackSlot s a := by
  rw [stackSlot, h, stackSlot]

/-- The pops of a program address leave FLAGS (R64, R65). -/
theorem flags_afterPopPc (hp : paramsWf s.par = true) : (afterPopPc s).flags = s.flags := by
  rw [afterPopPc, flags_setSp _ _ (by simpa using hp), flags_setSp _ _ hp]

variable {ir rf : List Byte} {dm : List Nat}

theorem framed_pc (s : State) (w : Addr) : Framed s { s with pc := w } ir rf dm :=
  (quiet_pc s w).framed (fun _ _ => rfl) (fun _ _ => rfl)

/-- A change of IMR touches IMR alone. -/
theorem framed_imr (s : State) (m : Byte) (hir : s.par.imrAddr ∈ ir) :
    Framed s { s with imr := m } ir rf dm where
  registers := ⟨fun _ => rfl, fun h => absurd hir h, fun _ => rfl⟩
  rf := fun _ _ => rfl
  dm := fun _ _ => rfl
  device := ⟨rfl, fun _ => rfl, rfl⟩
  latches := ⟨rfl, rfl⟩

/-- A change of FLAGS touches FLAGS alone (R21). -/
theorem framed_setFlags (s : State) (v : Byte) (hrf : s.par.flagsAddr ∈ rf) :
    Framed s (s.setFlags v) ir rf dm :=
  (quiet_setFlags s v).framed
    (fun _ ha => State.readRf_writeRf_other _ _ fun e => ha (e ▸ hrf)) (fun _ _ => rfl)

/-- A push of a program address touches SP's own registers and the two bytes below the old SP
(R65). -/
theorem framed_afterPushAddr (w : Addr) (hp : paramsWf s.par = true)
    (h1 : stackSlot s (s.sp - 1#16) = true) (h2 : stackSlot s (s.sp - 2#16) = true) :
    Framed s (afterPushAddr s w) ir
      (spRegisters s.par ++ stackRf s [s.sp - 1#16, s.sp - 2#16])
      (stackDm s [s.sp - 1#16, s.sp - 2#16]) :=
  (quiet_pushAddr (pushAddr_next w hp h1 h2)).framed
    (fun _ ha => readRf_afterPushAddr_other w hp h1 (fun h => ha (List.mem_append_left _ h))
      fun h => ha (List.mem_append_right _ h))
    (fun _ ha => dm_afterPushAddr_other w hp h1 ha)

/-- CALL touches SP's own registers and the two bytes below the old SP (R151). -/
theorem framed_afterCall (hp : paramsWf s.par = true)
    (h1 : stackSlot s (s.sp - 1#16) = true) (h2 : stackSlot s (s.sp - 2#16) = true) :
    Framed s (afterCall da s) ir
      (spRegisters s.par ++ stackRf s [s.sp - 1#16, s.sp - 2#16])
      (stackDm s [s.sp - 1#16, s.sp - 2#16]) :=
  ((framed_advance s 3).trans (framed_afterPushAddr (s := s.advance 3) _ hp h1 h2)).trans
    (framed_pc _ da)

/-- The pops of a program address touch SP's own registers alone (R65). -/
theorem framed_afterPopPc (s : State) (hrf : spRegisters s.par ⊆ rf) :
    Framed s (afterPopPc s) ir rf dm :=
  (framed_setSp s _ hrf).trans (framed_setSp _ _ (by simpa using hrf))

/-- RET touches SP's own registers alone (R152). -/
theorem framed_afterRet (s : State) : Framed s (afterRet s) ir (spRegisters s.par) dm :=
  ((framed_advance s 1).trans (framed_afterPopPc (s.advance 1) (List.Subset.refl _))).trans
    (framed_pc _ _)

/-- The pops of a return from interrupt touch FLAGS and SP's own registers alone (R102). -/
theorem framed_afterPopFrame (s : State) (hflags : s.par.flagsAddr ∈ rf)
    (hsp : spRegisters s.par ⊆ rf) : Framed s (afterPopFrame s) ir rf dm :=
  (((framed_setSp s _ hsp).trans (framed_setFlags _ _ (by simpa using hflags))).trans
    (framed_setSp _ _ (by simpa using hsp))).trans (framed_setSp _ _ (by simpa using hsp))

/-- IRET touches FLAGS, SP's own registers and IMR alone (R102). -/
theorem framed_afterIret (s : State) :
    Framed s (afterIret s) [s.par.imrAddr] (s.par.flagsAddr :: spRegisters s.par) dm := by
  have hpops := (framed_advance s 1).trans
    (framed_afterPopFrame (ir := [s.par.imrAddr]) (rf := s.par.flagsAddr :: spRegisters s.par)
      (dm := dm) (s.advance 1) (by simp) (by simp))
  have hpc := hpops.trans
    (framed_pc _ (join16 (stackByte s (s.sp + 1#16)) (stackByte s (s.sp + 2#16))))
  exact hpc.trans (framed_imr _ _ (by rw [hpc.par_eq]; simp))

@[simp] theorem afterCall_draws (da : Addr) (s : State) : (afterCall da s).draws = s.draws := by
  simp [afterCall, afterPushAddr]

@[simp] theorem afterRet_draws (s : State) : (afterRet s).draws = s.draws := by
  simp [afterRet, afterPopPc]

@[simp] theorem afterIret_draws (s : State) : (afterIret s).draws = s.draws := by
  simp [afterIret, afterPopFrame, afterPopFlags]

end

/-- Settles O43: CALL goes on exactly as its push of the following address does. -/
theorem callPushesReturnAddress : Obligations.CallPushesReturnAddress := by
  unfold Obligations.CallPushesReturnAddress
  intro da s hp
  refine ⟨fun h1 h2 => ?completes, fun ⟨_, ht⟩ => ?only⟩
  case completes =>
    have hp' : paramsWf (s.advance 3).par = true := hp
    have hsp := sp_afterPushAddr (s.pc + 3#16) hp' h1 h2
    have hflags := flags_afterPushAddr (s.pc + 3#16) hp' h1 h2
    obtain ⟨hlow, hhigh⟩ := stackByte_afterPushAddr (s.pc + 3#16) hp' h1
    obtain ⟨-, himr, -⟩ := (framed_afterCall (da := da) (ir := []) hp h1 h2).registers
    exact ⟨_, exec_call_next hp h1 h2, rfl, hsp, hlow, hhigh, hflags, himr (by simp)⟩
  case only =>
    obtain ⟨h1, h2, -⟩ := exec_call_cases hp ht
    exact ⟨h1, h2⟩

/-- Settles O44: RET goes on exactly as its pop of PC does. -/
theorem retPopsPc : Obligations.RetPopsPc := by
  unfold Obligations.RetPopsPc
  intro s hp
  refine ⟨fun h1 h2 => ?completes, fun ⟨_, ht⟩ => ?only⟩
  case completes =>
    have hsp := sp_popPc (s := s.advance 1) hp h1 h2
    have hflags := flags_afterPopPc (s := s.advance 1) hp
    obtain ⟨-, himr, -⟩ := (framed_afterRet (ir := []) (dm := []) s).registers
    exact ⟨_, exec_ret_next hp h1 h2, hsp, rfl, hflags, himr (by simp)⟩
  case only =>
    obtain ⟨h1, h2, -⟩ := exec_ret_cases hp ht
    exact ⟨h1, h2⟩

/-- Settles O57, by the frames of the push and of the pops. -/
theorem callAndReturnFrame : Obligations.CallAndReturnFrame := by
  unfold Obligations.CallAndReturnFrame
  intro da s t hp
  refine ⟨fun h => ?call, fun h => ?ret, fun h => ?iret⟩
  case call =>
    obtain ⟨h1, h2, rfl⟩ := exec_call_cases hp h
    obtain ⟨hregs, hrf, hdm, hdevice, hlatches⟩ := framed_afterCall (da := da) (ir := []) hp h1 h2
    have hflags := flags_afterPushAddr (s := s.advance 3) (s.pc + 3#16) hp h1 h2
    exact ⟨hregs, hflags, hrf, hdm, hdevice, hlatches, afterCall_draws da s⟩
  case ret =>
    obtain ⟨-, -, rfl⟩ := exec_ret_cases hp h
    obtain ⟨hregs, hrf, hdm, hdevice, hlatches⟩ := framed_afterRet (ir := []) (dm := []) s
    have hflags := flags_afterPopPc (s := s.advance 1) hp
    exact ⟨hregs, hflags, hrf, hdm, hdevice, hlatches, afterRet_draws s⟩
  case iret =>
    obtain rfl := exec_iret_cases hp h
    obtain ⟨hregs, hrf, hdm, hdevice, hlatches⟩ := framed_afterIret (dm := []) s
    exact ⟨hregs, setBit7_low s.imr, hrf, hdm, hdevice, hlatches, afterIret_draws s⟩

/-- Settles O45: the bytes RET pops are those CALL pushed, and neither touches IRQ (O43, O44, O57). -/
theorem retReturnsFromCall : Obligations.RetReturnsFromCall := by
  unfold Obligations.RetReturnsFromCall
  intro da s hp h1 h2
  obtain ⟨hcompletes, -⟩ := callPushesReturnAddress da s hp
  obtain ⟨t, hcall, -, hsp, hlow, hhigh, hflags, himr⟩ := hcompletes h1 h2
  obtain ⟨-, hpar⟩ := exec_pm_par hcall
  have hp' : paramsWf t.par = true := hpar ▸ hp
  have hslot := stackSlot_eq_of_par_eq hpar
  have hsp1 : t.sp + 1#16 = s.sp - 1#16 := by rw [hsp]; bv_omega
  have hsp2 : t.sp + 2#16 = s.sp := by rw [hsp]; bv_omega
  obtain ⟨hcompletes', -⟩ := retPopsPc t hp'
  obtain ⟨u, hret, husp, hupc, huflags, huimr⟩ :=
    hcompletes' (by rw [hslot, hsp]; exact h2) (by rw [hslot, hsp1]; exact h1)
  obtain ⟨hcallFrame, -, -⟩ := callAndReturnFrame da s t hp
  obtain ⟨-, hretFrame, -⟩ := callAndReturnFrame da t u hp'
  obtain ⟨⟨hirq, -⟩, -⟩ := hcallFrame hcall
  obtain ⟨⟨huirq, -⟩, -⟩ := hretFrame hret
  have hpc : u.pc = s.pc + 3#16 := by
    rw [hupc, hsp1, hsp, hhigh, hlow]
    exact join16_hi8_lo8 (s.pc + 3#16)
  exact ⟨t, u, hcall, hret, hpc, husp.trans hsp2, huflags.trans hflags, huimr.trans himr,
    (huirq (by simp)).trans (hirq (by simp))⟩

/-- Settles O42: JR's next state is the model's own. -/
theorem jrBranchesOnCondition : Obligations.JrBranchesOnCondition := by
  unfold Obligations.JrBranchesOnCondition
  exact fun cc ra s => exec_jr s cc ra

end Sys2Proof.Machine

/-! ### The step: the sample point, the interrupt condition and priority selection -/

namespace Sys2Proof.Machine

open Sys2Proof.Safety

section

variable {s : State} {n : Level} {i : Instr} {rest : List Byte}

/-- The candidates are the low six bits of IRQ and IMR (R224). -/
theorem candidates_eq (s : State) :
    candidates s = s.irq.extractLsb' 0 6 &&& s.imr.extractLsb' 0 6 := by
  ext k hk
  simp [candidates]

/-- The interrupt condition, level by level (R224). -/
theorem interruptPending_iff :
    interruptPending s = true ↔
      s.imr.getLsbD 7 = true ∧
        ∃ n : Level, s.irq.getLsbD n.val = true ∧ s.imr.getLsbD n.val = true := by
  simp only [interruptPending, Bool.and_eq_true, bne_iff_ne, exists_candidate, candidates_bit]

/-- The CPU's step with an interrupt pending after the sample serves it (R224). -/
theorem step_eq_serveInterrupt (hcpu : nextTurn s = .cpu)
    (hp : interruptPending (sample (dropTurn s)) = true) :
    step s = serveInterrupt (sample (dropTurn s)) := by
  simp [step, hcpu, takeTurn, cpuStep, atBoundary, hp]

theorem serveInterrupt_of_select (h : select s.ipr (candidates s) = some n) :
    serveInterrupt s = takeInterrupt n s := by
  simp [serveInterrupt, h]

/-- With no level selected the machine stops by name (R228). -/
theorem serveInterrupt_of_none (h : select s.ipr (candidates s) = none) :
    serveInterrupt s = .fault .iprGroupNotUsed := by
  simp [serveInterrupt, h]

/-- A "Not Used" group pattern selects no level, whatever is a candidate (R228). -/
theorem select_of_notUsed {ipr : Byte} (cand : BitVec 6) (h : priorityOrder ipr = none) :
    select ipr cand = none := by
  simp [select, h]

theorem runInstruction_of_ok (h : decode (fetch s) = .ok (i, rest)) :
    runInstruction s = exec i s := by
  simp [runInstruction, h]

/-- A waiting request is in IRQ only at bits 5:0 (R220). -/
theorem or_setWidth_high (v : Byte) (r : BitVec 6) :
    (v ||| r.setWidth 8).extractLsb' 6 2 = v.extractLsb' 6 2 := by
  ext k hk
  simp

/-- IRQ after the sample point, level by level (R220). -/
theorem sample_irq_bit (s : State) (n : Level) :
    (sample s).irq.getLsbD n.val =
      (s.irq.getLsbD n.val || (s.irqen && s.req.getLsbD n.val)) := by
  have hn : n.val < 8 := by omega
  rw [sample_eq]
  cases s.irqen <;> simp [hn]

/-- REQ after the sample point, level by level (R220, D7). -/
theorem sample_req_bit (s : State) (n : Level) :
    (sample s).req.getLsbD n.val =
      (!s.irqen && s.req.getLsbD n.val && (Config.reqSurvives s.draws).getLsbD n.val) := by
  rw [sample_eq]
  cases s.irqen <;> simp

/-- The sample point leaves `IRQ[7:6]` (R220). -/
theorem sample_irq_high (s : State) :
    (sample s).irq.extractLsb' 6 2 = s.irq.extractLsb' 6 2 := by
  rw [sample_eq]
  cases s.irqen with
  | false => rfl
  | true => exact or_setWidth_high s.irq s.req

/-- The next boundary takes the cycle of the first enabled level of the priority order that is in
IRQ after the sample, with the master enable set (R224, R226). -/
theorem step_takes_first {before after : List Level} (hcpu : nextTurn s = .cpu)
    (h7 : s.imr.getLsbD 7 = true) (ho : priorityOrder s.ipr = some (before ++ n :: after))
    (hn : (candidates (sample (dropTurn s))).getLsbD n.val = true)
    (hb : ∀ m ∈ before, (candidates (sample (dropTurn s))).getLsbD m.val = false) :
    step s = takeInterrupt n (sample (dropTurn s)) := by
  have hbits : (sample (dropTurn s)).irq.getLsbD n.val = true ∧
      (sample (dropTurn s)).imr.getLsbD n.val = true := by
    rwa [candidates_bit, Bool.and_eq_true] at hn
  rw [step_eq_serveInterrupt hcpu (interruptPending_iff.mpr ⟨by simpa using h7, n, hbits⟩)]
  exact serveInterrupt_of_select (select_of_first (by simpa using ho) hn hb)

end

/-- Settles O16: the interrupt condition is the model's, and what selection gives is served. -/
theorem interruptConditionDecides : Obligations.InterruptConditionDecides := by
  unfold Obligations.InterruptConditionDecides
  intro s hcpu u
  refine ⟨fun hpending n hn => ?cycle, fun hnone => ?instruction⟩
  case cycle =>
    rw [step_eq_serveInterrupt hcpu (interruptPending_iff.mpr hpending)]
    exact serveInterrupt_of_select (by rw [candidates_eq]; exact hn)
  case instruction =>
    refine step_eq_runInstruction hcpu ?_
    rw [← Bool.not_eq_true, interruptPending_iff]
    exact hnone

/-- Settles O17, bit by bit. -/
theorem sampleMovesRequests : Obligations.SampleMovesRequests := by
  unfold Obligations.SampleMovesRequests
  intro s
  refine ⟨fun n => ⟨sample_irq_bit s n, sample_req_bit s n⟩, sample_irq_high s,
    (sample s).draws, ?_⟩
  rw [sample_eq]

/-- Settles O18: a used order holds every level, so it selects, and selection gives its first
candidate. -/
theorem selectTakesHighestCandidate : Obligations.SelectTakesHighestCandidate := by
  unfold Obligations.SelectTakesHighestCandidate
  intro ipr cand order ho hc
  obtain ⟨n, hn⟩ := select_isSome ho hc
  obtain ⟨before, after, ho', hcand, hbefore⟩ := select_spec hn
  rw [ho, Option.some.injEq] at ho'
  exact ⟨n, before, after, hn, ho', hcand, hbefore⟩

/-- Settles O20: the pattern selects nothing, and the pending interrupt stops the step. -/
theorem notUsedPatternStopsTheCycle : Obligations.NotUsedPatternStopsTheCycle := by
  unfold Obligations.NotUsedPatternStopsTheCycle
  intro s hcpu hp hbits
  rw [step_eq_serveInterrupt hcpu hp]
  apply serveInterrupt_of_none
  rw [sample_ipr, dropTurn_ipr]
  exact select_of_notUsed _ ((priorityOrder_none s.ipr).mpr hbits)

/-- Settles O15: the machine's fetch reads the bytes at PC, and nothing is served first. -/
theorem stepRunsDecodedInstruction : Obligations.StepRunsDecodedInstruction := by
  unfold Obligations.StepRunsDecodedInstruction
  intro s i rest hcpu hp hd
  rw [step_eq_runInstruction hcpu hp]
  apply runInstruction_of_ok
  rw [fetch_sample, fetch_dropTurn, fetch_eq, hd]

/-- The priority orders of the 64 values of `IPR[5:0]`, without those of the patterns "Not Used". -/
def usedOrders : List (List Level) :=
  (List.range 64).filterMap fun n => priorityOrder (BitVec.ofNat 8 n)

/-- The used orders are all different (R227). -/
theorem usedOrders_nodup : usedOrders.Nodup := by
  decide +kernel

/-- There are six used group patterns and two orders of the members of each group (R227). -/
theorem usedOrders_length : usedOrders.length = 48 := by
  decide +kernel

/-- Settles O19: case by case of the group bits, then over the 64 values of `IPR[5:0]`. -/
theorem priorityOrderIsTables : Obligations.PriorityOrderIsTables := by
  unfold Obligations.PriorityOrderIsTables
  refine ⟨fun ipr => ?tables, priorityOrder_perm, usedOrders_nodup, usedOrders_length⟩
  case tables =>
    intro a b c
    unfold priorityOrder groupOrder
    cases ipr.getLsbD 4 <;> cases ipr.getLsbD 3 <;> cases ipr.getLsbD 0 <;>
      simp [groupMembers, a, b, c]

end Sys2Proof.Machine

/-! ### The interrupt cycle and the return from it -/

namespace Sys2Proof.Machine

open Sys2Proof.Safety

section

variable {s t : State} {ir rf rf' : List Byte} {dm dm' : List Nat}

theorem Framed.mono (h : Framed s t ir rf dm) (hrf : rf ⊆ rf') (hdm : dm ⊆ dm') :
    Framed s t ir rf' dm' where
  registers := h.registers
  rf := fun a ha => h.rf a fun hin => ha (hrf hin)
  dm := fun a ha => h.dm a fun hin => ha (hdm hin)
  device := h.device
  latches := h.latches

/-- Where FLAGS reads as before, it need not be listed (R21). -/
theorem RfKept.of_flags (h : RfKept s t (s.par.flagsAddr :: rf)) (hpar : t.par = s.par)
    (hflags : t.flags = s.flags) : RfKept s t rf := by
  intro a ha
  by_cases hf : a = s.par.flagsAddr
  · rw [State.flags, hpar, State.flags, ← hf] at hflags
    exact hflags
  · exact h a (List.not_mem_cons_of_ne_of_not_mem hf ha)

end

section

variable {s t : State} {slots slots' : List Addr}

theorem stackRf_mono (s : State) (h : slots ⊆ slots') : stackRf s slots ⊆ stackRf s slots' := by
  unfold stackRf
  split
  · exact List.map_subset _ h
  · exact List.Subset.refl _

theorem stackDm_mono (s : State) (h : slots ⊆ slots') : stackDm s slots ⊆ stackDm s slots' := by
  unfold stackDm
  split
  · exact List.Subset.refl _
  · exact List.map_subset _ h

/-- Which bytes of the register file are the stack's is the parameters' alone (R64). -/
theorem stackRf_eq_of_par_eq (h : t.par = s.par) : stackRf t slots = stackRf s slots := by
  rw [stackRf, h, stackRf]

/-- Which bytes of data memory are the stack's is the parameters' alone (R64). -/
theorem stackDm_eq_of_par_eq (h : t.par = s.par) : stackDm t slots = stackDm s slots := by
  rw [stackDm, h, stackDm]

/-- SP's own registers and the stored bytes are among those of more slots. -/
theorem spRegisters_append_stackRf_mono (s : State) (h : slots ⊆ slots') :
    spRegisters s.par ++ stackRf s slots ⊆ spRegisters s.par ++ stackRf s slots' :=
  List.append_subset.mpr
    ⟨List.subset_append_left _ _, List.subset_append_of_subset_right _ (stackRf_mono s h)⟩

end

/-- What the three pushes of the interrupt cycle leave (R230). -/
def afterPushFrame (s : State) : State := afterPush (afterPushAddr s s.pc) s.flags

/-- What the interrupt cycle of level n leaves where it goes on (R230 to R234). -/
def afterCycle (n : Level) (s : State) : State :=
  { afterPushFrame s with
    irq := s.irq &&& ~~~(levelBit n), imr := clearBit7 s.imr, pc := vector s n }

@[simp] theorem afterPushAddr_par (s : State) (w : Addr) : (afterPushAddr s w).par = s.par := by
  simp [afterPushAddr]

@[simp] theorem stackSlot_afterPushAddr (s : State) (w a : Addr) :
    stackSlot (afterPushAddr s w) a = stackSlot s a := by simp [afterPushAddr]

@[simp] theorem afterPushFrame_draws (s : State) : (afterPushFrame s).draws = s.draws := by
  simp [afterPushFrame, afterPushAddr]

/-- The vector is two bytes of program memory, the high byte first (R62, R234). -/
theorem vector_eq (s : State) (n : Level) :
    vector s n = s.pm.read (2 * n.val) ++ s.pm.read (2 * n.val + 1) := by
  have hlow : (BitVec.ofNat 16 (2 * n.val)).toNat = 2 * n.val := by simp; omega
  have hhigh : (BitVec.ofNat 16 (2 * n.val + 1)).toNat = 2 * n.val + 1 := by simp; omega
  rw [vector, join16, State.readPm, State.readPm, hlow, hhigh]

/-- The serviced request is withdrawn and no other bit of IRQ (R232). -/
theorem withoutLevelBit_bit (v : Byte) (n : Level) (k : Nat) :
    (v &&& ~~~(levelBit n)).getLsbD k = (v.getLsbD k && k != n.val) := by
  rw [BitVec.getLsbD_and, BitVec.getLsbD_not, levelBit_bit]
  by_cases hk : k < 8
  · simp [hk, bne, beq_eq_decide]
  · simp [BitVec.getLsbD_of_ge v k (by omega)]

section

variable {n : Level} {s : State} (hp : paramsWf s.par = true)
  (h1 : stackSlot s (s.sp - 1#16) = true) (h2 : stackSlot s (s.sp - 2#16) = true)

include hp h1 h2

/-- The byte pushed after a program address goes to the third slot below SP (R230). -/
theorem sp_afterPushAddr_sub_one (w : Addr) : (afterPushAddr s w).sp - 1#16 = s.sp - 3#16 := by
  rw [sp_afterPushAddr _ hp h1 h2, sub_two_sub_one]

/-- The push of FLAGS leaves the slots of PC, which are not the third below SP (R230). -/
theorem stackByte_afterPushFrame_pc {i : Nat} (hi : i < 3)
    (hslot : stackSlot s (s.sp - BitVec.ofNat 16 i) = true) :
    stackByte (afterPushFrame s) (s.sp - BitVec.ofNat 16 i) =
      stackByte (afterPushAddr s s.pc) (s.sp - BitVec.ofNat 16 i) := by
  apply stackByte_afterPush_other _ (by simpa using hp) (by simpa using hslot)
  rw [sp_afterPushAddr_sub_one hp h1 h2, afterPushAddr_par]
  exact slots_differ s s.sp (j := 3) (by omega) (by decide) (by omega)

/-- The frame of the cycle: PC low, PC high and FLAGS, downwards from SP (R230). -/
theorem stackByte_afterPushFrame :
    stackByte (afterPushFrame s) (s.sp - 1#16) = lo8 s.pc ∧
    stackByte (afterPushFrame s) (s.sp - 2#16) = hi8 s.pc ∧
    stackByte (afterPushFrame s) (s.sp - 3#16) = s.flags := by
  obtain ⟨hlow, hhigh⟩ := stackByte_afterPushAddr s.pc hp h1
  refine ⟨?low, ?high, ?flags⟩
  case low => exact (stackByte_afterPushFrame_pc hp h1 h2 (i := 1) (by decide) h1).trans hlow
  case high => exact (stackByte_afterPushFrame_pc hp h1 h2 (i := 2) (by decide) h2).trans hhigh
  case flags =>
    rw [← sp_afterPushAddr_sub_one hp h1 h2 s.pc]
    exact stackByte_afterPush_same _ _

variable (h3 : stackSlot s (s.sp - 3#16) = true)

include h3

/-- Where the three bytes below SP are stack slots, the push of FLAGS has its slot (R230). -/
theorem third_slot (w : Addr) :
    stackSlot (afterPushAddr s w) ((afterPushAddr s w).sp - 1#16) = true := by
  rw [sp_afterPushAddr_sub_one hp h1 h2, stackSlot_afterPushAddr]
  exact h3

theorem sp_afterPushFrame : (afterPushFrame s).sp = s.sp - 3#16 := by
  rw [afterPushFrame, sp_afterPush _ (by simpa using hp) (third_slot hp h1 h2 h3 _),
    sp_afterPushAddr_sub_one hp h1 h2]

theorem flags_afterPushFrame : (afterPushFrame s).flags = s.flags := by
  rw [afterPushFrame, flags_afterPush _ (by simpa using hp) (third_slot hp h1 h2 h3 _),
    flags_afterPushAddr _ hp h1 h2]

/-- The cycle's pushes touch SP's own registers and the three bytes below the old SP (R230). -/
theorem framed_afterPushFrame :
    Framed s (afterPushFrame s) []
      (spRegisters s.par ++ stackRf s [s.sp - 1#16, s.sp - 2#16, s.sp - 3#16])
      (stackDm s [s.sp - 1#16, s.sp - 2#16, s.sp - 3#16]) := by
  have hpc := framed_afterPushAddr (ir := []) s.pc hp h1 h2
  have hsp := sp_afterPushAddr_sub_one hp h1 h2 s.pc
  refine (hpc.mono ?rf ?dm).trans
    (framed_afterPush s.flags (by simpa using hp) (third_slot hp h1 h2 h3 _) ?rf' ?dm')
  case rf => exact spRegisters_append_stackRf_mono s (by simp)
  case dm => exact stackDm_mono s (by simp)
  case rf' =>
    rw [hsp, afterPushAddr_par, stackRf_eq_of_par_eq (afterPushAddr_par s s.pc)]
    exact spRegisters_append_stackRf_mono s (by simp)
  case dm' =>
    rw [hsp, stackDm_eq_of_par_eq (afterPushAddr_par s s.pc)]
    exact stackDm_mono s (by simp)

/-- The interrupt cycle goes on where the three bytes below SP are stack slots (R230). -/
theorem takeInterrupt_next_afterCycle : takeInterrupt n s = .next (afterCycle n s) :=
  takeInterrupt_next hp h1 h2 h3

end

/-- Settles O21: the pushes fill the frame, and IRQ, IMR and PC are the cycle's own. -/
theorem interruptCycleSavesAndVectors : Obligations.InterruptCycleSavesAndVectors := by
  unfold Obligations.InterruptCycleSavesAndVectors
  intro n s hp h1 h2 h3
  obtain ⟨hlow, hhigh, hflags⟩ := stackByte_afterPushFrame hp h1 h2
  obtain ⟨⟨-, -, hipr⟩, hrf, hdm, hdevice, hlatches⟩ := framed_afterPushFrame hp h1 h2 h3
  exact ⟨afterCycle n s, takeInterrupt_next_afterCycle hp h1 h2 h3, vector_eq s n,
    sp_afterPushFrame hp h1 h2 h3, hlow, hhigh, hflags, flags_afterPushFrame hp h1 h2 h3,
    withoutLevelBit_bit s.irq n, clearBit7_bit s.imr, hipr (by simp), hlatches, hdevice,
    afterPushFrame_draws s, hrf, hdm⟩

/-- Settles O23: IRET pops the frame the cycle pushed and sets the master enable the cycle cleared
(O21, O34, O57). -/
theorem iretResumesInterruptedProgram : Obligations.IretResumesInterruptedProgram := by
  unfold Obligations.IretResumesInterruptedProgram
  intro n s hp h1 h2 h3 h7
  obtain ⟨t, hcycle, -, hsp, hlow, hhigh, hflags, htflags, -, -, hipr, ⟨hreq, hirqen⟩,
    ⟨hpar, hpm, henv⟩, -, hrf, hdm⟩ := interruptCycleSavesAndVectors n s hp h1 h2 h3
  have hp' : paramsWf t.par = true := hpar ▸ hp
  have hslot := stackSlot_eq_of_par_eq hpar
  have hsp1 : t.sp + 1#16 = s.sp - 2#16 := by rw [hsp]; bv_omega
  have hsp2 : t.sp + 2#16 = s.sp - 1#16 := by rw [hsp]; bv_omega
  have hsp3 : t.sp + 3#16 = s.sp := by rw [hsp]; bv_omega
  obtain ⟨hcompletes, -⟩ := iretPopsFlagsAndPc t hp'
  obtain ⟨u, hiret, huflags, hupc, husp, -, -, huipr, -⟩ :=
    hcompletes (by rw [hslot, hsp]; exact h3) (by rw [hslot, hsp1]; exact h2)
      (by rw [hslot, hsp2]; exact h1)
  obtain ⟨-, -, hiretFrame⟩ := callAndReturnFrame 0 t u hp'
  obtain ⟨-, -, hurf, hudm, ⟨hupar, hupm, huenv⟩, ⟨hureq, huirqen⟩, -⟩ := hiretFrame hiret
  have hpc : u.pc = s.pc := by
    rw [hupc, hsp1, hsp2, hhigh, hlow]
    exact join16_hi8_lo8 s.pc
  have hflags' : u.flags = s.flags := by rw [huflags, hsp, hflags]
  have himr : u.imr = s.imr := by
    have hset : u.imr = setBit7 t.imr := congrArg State.imr (exec_iret_cases hp' hiret)
    rw [hset, takeInterrupt_imr hcycle, setBit7_clearBit7 h7]
  refine ⟨t, u, hcycle, hiret, hpc, hflags', husp.trans hsp3, himr, huipr.trans hipr,
    ⟨hureq.trans hreq, huirqen.trans hirqen⟩,
    ⟨hupar.trans hpar, fun a => (hupm a).trans (hpm a), huenv.trans henv⟩, fun a ha => ?_,
    fun a ha => (hudm a List.not_mem_nil).trans (hdm a ha)⟩
  have hown : a ∉ spRegisters t.par := by
    rw [hpar]
    exact fun h => ha (List.mem_append_left _ h)
  exact (RfKept.of_flags hurf hupar (hflags'.trans htflags.symm) a hown).trans (hrf a ha)

end Sys2Proof.Machine

/-! ### Software interrupts and nesting -/

namespace Sys2Proof.Machine

open Sys2Proof.Safety

/-- A byte stored into IRQ, with or without `EDGE_SELECT`, gives every level its bit (R31). -/
theorem storedIrq_bit (edge : Bool) (v : Byte) (n : Level) :
    (if edge then v else v &&& 0x3F#8).getLsbD n.val = v.getLsbD n.val := by
  have hmask : ∀ m : Level, (0x3F#8).getLsbD m.val = true := by decide
  cases edge with
  | false => simp only [Bool.false_eq_true, if_false, BitVec.getLsbD_and, hmask n, Bool.and_true]
  | true => rfl

section

variable {s : State}

/-- What an OR with IRQ as its destination leaves once `IRQEN` is set (R31, R121). -/
def afterOrIrq (s : State) (im : Byte) : State :=
  afterLogic { s with
    pc := s.pc + 3#16
    irq := if s.par.edgeSelect then s.irq ||| im else (s.irq ||| im) &&& 0x3F#8 } (s.irq ||| im)

/-- OR reads and writes IRQ from any state (R26, R27, R121). -/
theorem exec_or_irq_next (im : Byte) (hirqen : s.irqen = true) :
    exec (.or s.par.irqAddr im) s = .next (afterOrIrq s im) := by
  obtain ⟨hcompletes, -⟩ := orSetsBits s.par.irqAddr im s
  rw [hcompletes (by simp [canWrite])]
  simp [afterOrIrq, regValue, afterRead, afterWrite, hirqen]

/-- An OR with the bit of a level sets that level's request and leaves the other levels' (R225). -/
theorem afterOrIrq_irq_bit (s : State) (n m : Level) :
    (afterOrIrq s (levelBit n)).irq.getLsbD m.val = (s.irq.getLsbD m.val || decide (m = n)) := by
  have hbit : (afterOrIrq s (levelBit n)).irq.getLsbD m.val =
      (s.irq ||| levelBit n).getLsbD m.val := storedIrq_bit s.par.edgeSelect _ m
  rw [hbit, BitVec.getLsbD_or, levelBit_bit]
  simp [Fin.ext_iff]

/-- The candidates at the boundary after such an OR: what was pending or waiting, and the level the
OR requests, where enabled (R220, R224, D6). -/
theorem candidates_after_or (n m : Level) (hirqen : s.irqen = true) :
    (candidates (sample (dropTurn (afterOrIrq s (levelBit n))))).getLsbD m.val =
      ((s.irq.getLsbD m.val || s.req.getLsbD m.val || decide (m = n)) && s.imr.getLsbD m.val) := by
  have hreq : (dropTurn (afterOrIrq s (levelBit n))).req = s.req := rfl
  have himr : (dropTurn (afterOrIrq s (levelBit n))).imr = s.imr := rfl
  have hen : (dropTurn (afterOrIrq s (levelBit n))).irqen = true := hirqen
  rw [candidates_bit, sample_irq_bit, sample_imr, dropTurn_irq, afterOrIrq_irq_bit, hreq, himr, hen,
    Bool.true_and, Bool.or_right_comm]

/-- A write to IMR leaves the byte there and nothing else (R37). -/
theorem afterWrite_imrAddr (v : Byte) (hp : paramsWf s.par = true) :
    afterWrite s s.par.imrAddr v = { s with imr := v } := by
  rw [afterWrite, if_neg (Ne.symm (paramsWf_facts hp).irq_ne_imr), if_pos rfl]

/-- PUSH of IMR stores the byte IMR holds below SP (R125). -/
theorem exec_push_imr_next (hp : paramsWf s.par = true) (hslot : stackSlot s (s.sp - 1#16) = true) :
    ∃ t, exec (.push s.par.imrAddr) s = .next t ∧ t.par = s.par ∧ t.imr = s.imr ∧
      t.sp = s.sp - 1#16 ∧ stackByte t t.sp = s.imr := by
  have hf := paramsWf_facts hp
  obtain ⟨-, -, hsph⟩ := hf.sph_ne_int
  obtain ⟨-, -, hspl⟩ := hf.spl_ne_int
  obtain ⟨hcompletes, -⟩ := pushStoresRegister s.par.imrAddr s hp
  obtain ⟨t, hpush, hsp, hbyte, -⟩ := hcompletes hspl.symm hsph.symm (canRead_imr s) hslot
  obtain ⟨⟨-, himr, -⟩, -, -, -, ⟨hpar, -⟩, -⟩ := pushFrame s.par.imrAddr s t hp hpush
  exact ⟨t, hpush, hpar, himr (by simp), hsp, hbyte.trans (regValue_imr hp)⟩

/-- What LD of a mask into IMR leaves where it goes on (R37, R124). -/
def afterLdImr (s : State) (mask : Byte) : State := { s with pc := s.pc + 3#16, imr := mask }

/-- With the master enable clear, LD puts a mask whose bit 6 is 0 into IMR (R36, R124). -/
theorem exec_ld_imr_next {mask : Byte} (hp : paramsWf s.par = true)
    (h7 : s.imr.getLsbD 7 = false) (h6 : mask.getLsbD 6 = false) :
    exec (.ld s.par.imrAddr mask) s = .next (afterLdImr s mask) := by
  obtain ⟨hcompletes, -⟩ := ldWritesImmediate s.par.imrAddr mask s
  rw [hcompletes (by rw [canWrite_imr _ hp, h7, h6]; rfl)]
  exact congrArg Host.Outcome.next (afterWrite_imrAddr (s := { s with pc := s.pc + 3#16 }) mask hp)

/-- With the master enable clear, POP puts the byte at SP into IMR if its bit 6 is 0 (R36, R126). -/
theorem exec_pop_imr_next (hp : paramsWf s.par = true) (hslot : stackSlot s s.sp = true)
    (h7 : s.imr.getLsbD 7 = false) (h6 : (stackByte s s.sp).getLsbD 6 = false) :
    ∃ t, exec (.pop s.par.imrAddr) s = .next t ∧ t.imr = stackByte s s.sp ∧ t.sp = s.sp + 1#16 := by
  have hf := paramsWf_facts hp
  obtain ⟨-, -, hsph⟩ := hf.sph_ne_int
  obtain ⟨-, -, hspl⟩ := hf.spl_ne_int
  obtain ⟨hcompletes, -⟩ := popLoadsRegister s.par.imrAddr s hp
  obtain ⟨t, hpop, hsp, -, -, himr, -⟩ := hcompletes hspl.symm hsph.symm hslot
    (by rw [canWrite_imr _ hp, h7, h6]; rfl)
  rw [afterWrite_imrAddr _ hp] at himr
  exact ⟨t, hpop, himr, hsp⟩

end

/-- Settles O24: the OR makes level n a candidate, and no level before n is one at the next
boundary. -/
theorem softwareInterruptIsTaken : Obligations.SoftwareInterruptIsTaken := by
  unfold Obligations.SoftwareInterruptIsTaken
  intro n s higher lower _ hirqen hcpu h7 hmask horder hhigher
  have hnodup := (priorityOrder_perm _ _ horder).1
  refine ⟨afterOrIrq s (levelBit n), exec_or_irq_next _ hirqen, ?request, rfl, ?cycle⟩
  case request => simp [afterOrIrq_irq_bit]
  case cycle =>
    refine step_takes_first hcpu h7 horder ?candidate ?before
    case candidate => simp [candidates_after_or n n hirqen, hmask]
    case before =>
      intro m hm
      have hne : m ≠ n := by
        rintro rfl
        exact (List.nodup_append.mp hnodup).2.2 m hm m List.mem_cons_self rfl
      rw [candidates_after_or n m hirqen, decide_eq_false hne, Bool.or_false]
      exact hhigher m hm

/-- Settles O46: PUSH stores the old mask, LD leaves SP and the stack's bytes, and POP writes the
stored byte back. -/
theorem popRestoresPushedMask : Obligations.PopRestoresPushedMask := by
  unfold Obligations.PopRestoresPushedMask
  intro s mask hp hslot h7 h6 hm7 hm6
  obtain ⟨t, hpush, hpar, himr, hsp, hbyte⟩ := exec_push_imr_next hp hslot
  have hp' : paramsWf t.par = true := hpar ▸ hp
  have hload : exec (.ld t.par.imrAddr mask) t = .next (afterLdImr t mask) :=
    exec_ld_imr_next hp' (himr ▸ h7) hm6
  have hslot' : stackSlot t t.sp = true := by
    rw [stackSlot_eq_of_par_eq hpar, hsp]
    exact hslot
  obtain ⟨w, hpop, hwimr, hwsp⟩ :=
    exec_pop_imr_next (s := afterLdImr t mask) hp' hslot' hm7
      (show (stackByte t t.sp).getLsbD 6 = false by rw [hbyte]; exact h6)
  have hback : t.sp + 1#16 = s.sp := by rw [hsp]; bv_omega
  refine ⟨t, afterLdImr t mask, w, hpush, hpar ▸ hload, rfl, ?_, hwimr.trans hbyte,
    hwsp.trans hback⟩
  rw [← hpar]
  exact hpop

end Sys2Proof.Machine

/-! ### The environment: requests, the sources of Table 7-1 and the pins -/

namespace Sys2Proof.Machine

open Sys2Proof.Safety

/-- The agent at the head of the schedule moves, on the state with its turn taken (log 10). -/
theorem step_of_env {s : State} {turn : Turn} {later : List Turn} (h : s.env = turn :: later) :
    step s = takeTurn turn { s with env := later } := by
  have hdrop : dropTurn s = { s with env := later } := by rw [dropTurn, h, List.tail_cons]
  rw [step, nextTurn, h, hdrop]

/-- A move of the environment replaces `REQ` alone, so the step answers the same state with the turn
taken and `REQ` as the move leaves it (R210). -/
theorem step_moves_req {s t : State} {turn : Turn} {later : List Turn} (h : s.env = turn :: later)
    (hmove : takeTurn turn { s with env := later } = .next t)
    (hframe : ∃ x, t = { s with env := later, req := x }) :
    step s = .next t ∧ t = { s with env := later, req := t.req } := by
  obtain ⟨x, rfl⟩ := hframe
  exact ⟨(step_of_env h).trans hmove, rfl⟩

/-- Setting a level's request leaves the other levels' (R44). -/
theorem or_reqBit_bit (r : BitVec 6) (n m : Level) :
    (r ||| reqBit n).getLsbD m.val = (r.getLsbD m.val || m == n) := by
  rw [BitVec.getLsbD_or, reqBit_bit]

/-- The machine gives each source the level of its row of Table 7-1 (R201). -/
theorem sourceLevel_eq (src : Source) : sourceLevel src = tableLevel src := by
  cases src <;> rfl

/-- `SOURCES(n)` is not empty where some source of the device has level n (R210). -/
theorem hasSource_of_mem {p : Params} {n : Level} (h : ∃ src ∈ p.sources, tableLevel src = n) :
    hasSource p n = true := by
  obtain ⟨src, hmem, hlevel⟩ := h
  exact List.any_eq_true.mpr ⟨src, hmem, decide_eq_true ((sourceLevel_eq src).trans hlevel)⟩

theorem request_of_hasSource {n : Level} {s : State} (h : hasSource s.par n = true) :
    request n s = { s with req := s.req ||| reqBit n } := by
  simp [request, h]

/-- A source that is not one of the two of IRQ3 is active where the device has it (R203). -/
theorem sourceActive_of_ne (p : Params) {src : Source} (hserial : src ≠ .serialIn)
    (h3 : src ≠ .ext3) : sourceActive p src = p.sources.contains src := by
  cases src with
  | serialIn => exact absurd rfl hserial
  | ext3 => exact absurd rfl h3
  | _ => exact Bool.and_true _

/-- `SERIAL_IN_ENABLED` selects one of the two sources of IRQ3 and touches no other (R203). -/
theorem sourceActive_eq (p : Params) (src : Source) :
    sourceActive p src =
      (p.sources.contains src && !(src == .serialIn && !p.serialInEnabled) &&
        !(src == .ext3 && p.serialInEnabled)) := by
  by_cases hserial : src = .serialIn
  · simp [sourceActive, hserial, beq_eq_decide]
  · by_cases h3 : src = .ext3
    · simp [sourceActive, h3, beq_eq_decide]
    · simp [sourceActive_of_ne p hserial h3, hserial, h3, beq_eq_decide]

/-- A source that asserts on a condition sets its level's request where it is active too, and no
other (R204). -/
theorem ite_assertSource_req_bit (c : Bool) (src : Source) (s : State) (m : Level) :
    (if c then assertSource src s else s).req.getLsbD m.val =
      (s.req.getLsbD m.val || (m == sourceLevel src && c && sourceActive s.par src)) := by
  unfold assertSource
  cases c with
  | false => simp only [Bool.false_eq_true, if_false, Bool.and_false, Bool.false_and, Bool.or_false]
  | true =>
    cases sourceActive s.par src with
    | false => simp only [Bool.false_eq_true, if_true, if_false, Bool.and_false, Bool.or_false]
    | true => simp only [if_true, or_reqBit_bit, Bool.and_true]

/-- A source sets its level's request where it is active, and no other (R204). -/
theorem assertSource_req_bit (src : Source) (s : State) (m : Level) :
    (assertSource src s).req.getLsbD m.val =
      (s.req.getLsbD m.val || (m == sourceLevel src && sourceActive s.par src)) := by
  simpa only [if_true, Bool.and_true] using ite_assertSource_req_bit true src s m

@[simp] theorem assertSource_par (src : Source) (s : State) : (assertSource src s).par = s.par := by
  obtain ⟨x, hx⟩ := assertSource_frame src s
  rw [hx]

/-- The transition is of a kind (R211). -/
def ofKind (e : Edge) (k : EdgeKind) : Bool :=
  k == .both || (e == .falling && k == .falling) || (e == .rising && k == .rising)

theorem edgeCounts_eq_ofKind (k : EdgeKind) (e : Edge) : edgeCounts k e = ofKind e k := by
  cases k <;> cases e <;> rfl

/-- The transitions of P31 or P32 that count: with `EDGE_SELECT` by Table 7-4, whose rows differ
for the two pins only in which bit `d` of `IRQ[7:6]` tells rising from falling; else by the device's
kind `k` (R32, R211). -/
def transitionCounts (s : State) (e : Edge) (d : Bool) (k : EdgeKind) : Bool :=
  if s.par.edgeSelect then
    (e == .falling && !d) || (e == .rising && d) || (s.irq.getLsbD 7 && s.irq.getLsbD 6)
  else ofKind e k

/-- `IRQ[7]` tells P31's rising edge from its falling one (Table 7-4). -/
theorem p31_transitionCounts (s : State) (e : Edge) :
    edgeCounts (p31Edges s) e = transitionCounts s e (s.irq.getLsbD 7) s.par.edgeP31 := by
  unfold p31Edges transitionCounts
  cases s.par.edgeSelect with
  | false => exact edgeCounts_eq_ofKind _ _
  | true => cases s.irq.getLsbD 7 <;> cases s.irq.getLsbD 6 <;> cases e <;> rfl

/-- `IRQ[6]` tells P32's rising edge from its falling one (Table 7-4). -/
theorem p32_transitionCounts (s : State) (e : Edge) :
    edgeCounts (p32Edges s) e = transitionCounts s e (s.irq.getLsbD 6) s.par.edgeP32 := by
  unfold p32Edges transitionCounts
  cases s.par.edgeSelect with
  | false => exact edgeCounts_eq_ofKind _ _
  | true => cases s.irq.getLsbD 7 <;> cases s.irq.getLsbD 6 <;> cases e <;> rfl

section

variable (e : Edge) (s : State) (m : Level)

/-- P33 requests IRQ1 (R211). -/
theorem pinMoves_p33_req_bit :
    (pinMoves .p33 e s).req.getLsbD m.val =
      (s.req.getLsbD m.val ||
        (m == 1 && ofKind e s.par.edgeP33 && s.par.sources.contains .ext1)) := by
  rw [← edgeCounts_eq_ofKind, ← sourceActive_of_ne s.par (by decide) (by decide)]
  exact ite_assertSource_req_bit _ .ext1 s m

/-- P31 requests IRQ2 (R211). -/
theorem pinMoves_p31_req_bit :
    (pinMoves .p31 e s).req.getLsbD m.val =
      (s.req.getLsbD m.val ||
        (m == 2 && transitionCounts s e (s.irq.getLsbD 7) s.par.edgeP31 &&
          s.par.sources.contains .ext2)) := by
  rw [← p31_transitionCounts, ← sourceActive_of_ne s.par (by decide) (by decide)]
  exact ite_assertSource_req_bit _ .ext2 s m

/-- P30 requests IRQ3 by its falling edge, where P32 does not replace it (R203). -/
theorem pinMoves_p30_req_bit :
    (pinMoves .p30 e s).req.getLsbD m.val =
      (s.req.getLsbD m.val ||
        (m == 3 && e == .falling && !s.par.irq3OnP32 &&
          (s.par.sources.contains .ext3 && !s.par.serialInEnabled))) := by
  have hfalling : (e == .falling) = edgeCounts .falling e := by cases e <;> rfl
  rw [hfalling, Bool.and_assoc (m == 3), Bool.and_comm (edgeCounts .falling e)]
  exact ite_assertSource_req_bit _ .ext3 s m

/-- P32 requests IRQ0, and IRQ3 too where it replaces P30 (R203, R211). -/
theorem pinMoves_p32_req_bit :
    (pinMoves .p32 e s).req.getLsbD m.val =
      (s.req.getLsbD m.val || (transitionCounts s e (s.irq.getLsbD 6) s.par.edgeP32 &&
        ((m == 0 && s.par.sources.contains .ext0) ||
          (m == 3 && s.par.irq3OnP32 &&
            (s.par.sources.contains .ext3 && !s.par.serialInEnabled))))) := by
  have h3 := ite_assertSource_req_bit s.par.irq3OnP32 .ext3 (assertSource .ext0 s) m
  rw [assertSource_par, assertSource_req_bit, Bool.or_assoc] at h3
  rw [← p32_transitionCounts, ← sourceActive_of_ne s.par (by decide) (by decide)]
  unfold pinMoves
  cases edgeCounts (p32Edges s) e with
  | false => simp only [Bool.false_eq_true, if_false, Bool.false_and, Bool.or_false]
  | true => exact h3

end

/-- Settles O25: level n has a source, so the event sets its request. -/
theorem requestSetsFirstFlipFlop : Obligations.RequestSetsFirstFlipFlop := by
  unfold Obligations.RequestSetsFirstFlipFlop
  intro n s later henv hsource
  obtain ⟨hstep, hframe⟩ := step_moves_req henv rfl (request_frame n { s with env := later })
  refine ⟨_, hstep, fun m => ?_, hframe⟩
  rw [request_of_hasSource (s := { s with env := later }) (hasSource_of_mem hsource)]
  exact or_reqBit_bit s.req n m

/-- Settles O26: a source sets the request of its level where it is active. -/
theorem sourcesRequestTheirLevel : Obligations.SourcesRequestTheirLevel := by
  unfold Obligations.SourcesRequestTheirLevel
  intro src s later henv
  obtain ⟨hstep, hframe⟩ := step_moves_req henv rfl (assertSource_frame src { s with env := later })
  refine ⟨_, hstep, hframe, fun m => ?_⟩
  rw [assertSource_req_bit, sourceLevel_eq, sourceActive_eq]
  simp only [Bool.and_assoc]

/-- Settles O27, pin by pin: the transitions that count and the sources the pin asserts. -/
theorem pinTransitionsRequestTheirLevels : Obligations.PinTransitionsRequestTheirLevels := by
  unfold Obligations.PinTransitionsRequestTheirLevels
  intro p e s later henv
  obtain ⟨hstep, hframe⟩ := step_moves_req henv rfl (pinMoves_frame p e { s with env := later })
  refine ⟨_, hstep, hframe, fun m => ?_⟩
  cases p with
  | p33 => exact pinMoves_p33_req_bit e { s with env := later } m
  | p31 => exact pinMoves_p31_req_bit e { s with env := later } m
  | p32 => exact pinMoves_p32_req_bit e { s with env := later } m
  | p30 => exact pinMoves_p30_req_bit e { s with env := later } m

end Sys2Proof.Machine

/-! ### The reset event -/

namespace Sys2Proof.Machine

open Sys2Proof.Safety

/-- The mask bits after the reset event are the free value drawn for them (R38). -/
theorem resetEvent_mask (s : State) :
    (resetEvent s).imr.extractLsb' 0 7 = Config.resetImr s.draws := by
  have low (x : BitVec 7) : (x.setWidth 8).extractLsb' 0 7 = x := by
    rw [BitVec.extractLsb'_setWidth_of_le (by decide), BitVec.extractLsb'_eq_self]
  exact low _

/-- Each register-file byte after the reset event is its own free value (R25, R300). -/
theorem readRf_resetEvent (s : State) (a : Byte) :
    (resetEvent s).readRf a = Config.resetRf s.draws a :=
  read_drawnRf s.draws a

/-- Settles O7: the step is the reset event on the state with its turn taken, which draws IMR[6:0] and
the register file and puts every other field at R300's value. -/
theorem resetEventReplacesState : Obligations.ResetEventReplacesState := by
  unfold Obligations.ResetEventReplacesState
  intro s later henv
  refine ⟨resetEvent { s with env := later }, step_of_env henv, ?_⟩
  exact ⟨rfl, rfl, resetEvent_master _, resetEvent_mask _, rfl, rfl, rfl, readRf_resetEvent _,
    rfl, rfl, rfl, rfl⟩

end Sys2Proof.Machine
